-- ==== Sys2Proof/Word.lean ====
section
/-! DEFINITION. The word. A word is a signed decimal integer, and the model's type of words is `Int`: 00_scope.md R10 allows
mathematical integers restricted by the range invariants, and R12 evaluates every expression on integers of unbounded size.
The range [MIN_WORD, MAX_WORD] is the regime's (`inWord` in Config.lean). -/

namespace Sys2Proof

/-- The decimal field `d[hi:lo]` of a non-negative integer (00_scope.md, section 6): digits `lo` to `hi`, counted from 0
at the least significant one. -/
def decimalField (hi lo n : Nat) : Nat := n / 10 ^ lo % 10 ^ (hi - lo + 1)

end Sys2Proof
end

