-- ==== Sys2Proof/Config.lean ====
section
/-! DEFINITION. What is fixed when the core is built: REGIME and the parameters it selects (00_scope.md R7 to R11). -/

namespace Sys2Proof

/-- `REGIME` (00_scope.md R7): fixed when the core is built; WIDE is canonical. -/
inductive Regime where
  | wide
  | narrow
deriving DecidableEq, Repr

namespace Regime

/-- The configuration's name (00_scope.md R3). -/
def configName : Regime → String
  | .wide => "BasicML-W6"
  | .narrow => "BasicML-N4"

/-- `DIGITS`: decimal digits of a word's magnitude (00_scope.md R8). -/
def digits : Regime → Nat
  | .wide => 6
  | .narrow => 4

/-- `MAX_WORD` (00_scope.md R8). -/
def maxWord : Regime → Int
  | .wide => 999999
  | .narrow => 9999

/-- `MIN_WORD`: always `-MAX_WORD` (00_scope.md R8). -/
def minWord (r : Regime) : Int := -r.maxWord

/-- `MEM_WORDS` (00_scope.md R8). -/
def memWords : Regime → Nat
  | .wide => 250
  | .narrow => 100

/-- `MAX_ADDRESS`, that is `MEM_WORDS - 1` (00_scope.md R8). -/
def maxAddress : Regime → Nat
  | .wide => 249
  | .narrow => 99

/-- `SCALE`, the encoding scale (00_scope.md R8). -/
def scale : Regime → Nat
  | .wide => 1000
  | .narrow => 100

/-- `OPC_DIGITS` (00_scope.md R8). -/
def opcDigits : Regime → Nat
  | .wide => 3
  | .narrow => 2

/-- `OPD_DIGITS` (00_scope.md R8). -/
def opdDigits : Regime → Nat
  | .wide => 3
  | .narrow => 2

/-- `OPCODE_MAX = MAX_WORD div SCALE` (00_scope.md R9). -/
def opcodeMax (r : Regime) : Nat := r.maxWord.toNat / r.scale

/-- `OPERAND_MAX = SCALE - 1` (00_scope.md R9). -/
def operandMax (r : Regime) : Nat := r.scale - 1

/-- `WORD_BITS`: the realisation's word width (00_scope.md R10). -/
def wordBits : Regime → Nat
  | .wide => 21
  | .narrow => 15

/-- `ADDR_BITS`: the realisation's PC width (00_scope.md R10). -/
def addrBits : Regime → Nat
  | .wide => 8
  | .narrow => 7

/-- `FIELD_BITS`: the realisation's width of the split fields (00_scope.md R10). -/
def fieldBits : Regime → Nat
  | .wide => 10
  | .narrow => 7

end Regime

/-- `inWord(v)` (00_scope.md, section 6): both ends inclusive. -/
abbrev inWord (r : Regime) (v : Int) : Prop := r.minWord ≤ v ∧ v ≤ r.maxWord

/-- `inAddr(a)` (00_scope.md, section 6); addresses are natural numbers, so `0 ≤ a` holds by type. -/
abbrev inAddr (r : Regime) (a : Nat) : Prop := a ≤ r.maxAddress

end Sys2Proof
end

