-- ==== Sys2Proof/Syntax.lean ====
section
/-! DEFINITION. The twelve instructions of BasicML (30_encoding.md R57), one constructor per row of the opcode table. -/

namespace Sys2Proof

/-- An instruction: its operation and its operand field `A`, as the word has it (30_encoding.md R56).
`A` is the data address of the first eight, the target of the three branches, and unused by HALT (R59). -/
inductive Instr where
  | read (a : Nat)
  | write (a : Nat)
  | load (a : Nat)
  | store (a : Nat)
  | add (a : Nat)
  | subtract (a : Nat)
  | divide (a : Nat)
  | multiply (a : Nat)
  | branch (a : Nat)
  | branchneg (a : Nat)
  | branchzero (a : Nat)
  | halt (a : Nat)
deriving DecidableEq, Repr

end Sys2Proof
end

