-- ==== Sys2Proof/WellFormed.lean ====
section
/-! DEFINITION. Which instructions exist in a regime: the operand must be an address, whatever the operation. -/

namespace Sys2Proof

/-- The operand field `A` of an instruction (30_encoding.md R56). -/
def Instr.operand : Instr → Nat
  | .read a => a
  | .write a => a
  | .load a => a
  | .store a => a
  | .add a => a
  | .subtract a => a
  | .divide a => a
  | .multiply a => a
  | .branch a => a
  | .branchneg a => a
  | .branchzero a => a
  | .halt a => a

/-- The one check of BasicML's operands: `inAddr(A)`, for every operation, HALT included (30_encoding.md R56). -/
abbrev WellFormed (r : Regime) (i : Instr) : Prop := inAddr r i.operand

end Sys2Proof
end

