-- ==== Sys2Proof/Decode.lean ====
section
/-! DEFINITION. From a word to an instruction, total and rejecting by name; then the encoder, from the same table
(30_encoding.md R52 to R63, 40_execution_cycle.md R66 stages 3 to 6, R68). -/

namespace Sys2Proof

/-- `opcode = word div SCALE` (30_encoding.md R53); used for non-negative words only. -/
def splitOpcode (r : Regime) (w : Int) : Nat := w.toNat / r.scale

/-- `operand = word mod SCALE` (30_encoding.md R53); used for non-negative words only. -/
def splitOperand (r : Regime) (w : Int) : Nat := w.toNat % r.scale

/-- Why a word is no instruction (30_encoding.md R55, R56, R58). -/
inductive DecodeError where
  | invalidInstruction
  | invalidOperand (operand : Nat)
  | invalidOpcode (opcode : Nat)
deriving DecidableEq, Repr

/-- The dispatcher's map from opcodes to operations (40_execution_cycle.md R68); `none` is its last arm, every unassigned
opcode (30_encoding.md R58). The opcode values are the same in both regimes (R57). -/
def ofOpcode (opcode a : Nat) : Option Instr :=
  match opcode with
  | 10 => some (.read a)
  | 11 => some (.write a)
  | 20 => some (.load a)
  | 21 => some (.store a)
  | 30 => some (.add a)
  | 31 => some (.subtract a)
  | 32 => some (.divide a)
  | 33 => some (.multiply a)
  | 40 => some (.branch a)
  | 41 => some (.branchneg a)
  | 42 => some (.branchzero a)
  | 43 => some (.halt a)
  | _ => none

/-- Decoding a word: the sign check, then the operand check, then the opcode, and the first that fails names the error
(30_encoding.md R60, R63; 40_execution_cycle.md R66 stages 3 to 6). -/
def decode (r : Regime) (w : Int) : Except DecodeError Instr :=
  if w < 0 then .error .invalidInstruction
  else if inAddr r (splitOperand r w) then
    match ofOpcode (splitOpcode r w) (splitOperand r w) with
    | some i => .ok i
    | none => .error (.invalidOpcode (splitOpcode r w))
  else .error (.invalidOperand (splitOperand r w))

/-- The opcode of an operation (30_encoding.md R57). -/
def Instr.opcode : Instr → Nat
  | .read _ => 10
  | .write _ => 11
  | .load _ => 20
  | .store _ => 21
  | .add _ => 30
  | .subtract _ => 31
  | .divide _ => 32
  | .multiply _ => 33
  | .branch _ => 40
  | .branchneg _ => 41
  | .branchzero _ => 42
  | .halt _ => 43

/-- `enc(op, a) = op * SCALE + a` (30_encoding.md R54). -/
def enc (r : Regime) (op a : Nat) : Int := ((op * r.scale + a : Nat) : Int)

/-- The word of an instruction. -/
def encode (r : Regime) (i : Instr) : Int := enc r i.opcode i.operand

/-- The instruction the decoder reads from the WIDE word whose value is `w` (log 13: a BasicML word is one number and has
no bit fields, so the number itself is the word, and `nbits` plays no part). -/
def decodeTableWord (_nbits w : Nat) : Option Instr :=
  match decode .wide (w : Int) with
  | .ok i => some i
  | .error _ => none

end Sys2Proof
end

