-- ==== Sys2Proof/Machine/State.lean ====
section
/-! DEFINITION. The machine's state as plain data, its reset value, and the reasons a step can stop
(10_state.md R14 to R31, 41_io.md R79, R80, 70_reset_and_hazards.md R113, R114). -/

namespace Sys2Proof.Machine

/-- `MEM` as the list of its cells that do not read 0, addresses strictly rising (log 3). A cell is a whole word, since
the core has no bytes (20_memory.md R41, log 2). -/
abbrev Memory := List (Nat × Int)

/-- `STATE` (10_state.md R23). -/
inductive Lifecycle where
  | ready
  | running
  | halted
  | faulted
deriving DecidableEq, Repr

/-- `HALT_CAUSE` (10_state.md R26); `notHalted` is the spec's None. -/
inductive HaltCause where
  | notHalted
  | haltInstruction
  | pcExhausted
deriving DecidableEq, Repr

/-- The eight fault kinds, in the order of their codes 1 to 8 (60_exceptions.md R97). -/
inductive FaultKind where
  | programCounterOutOfBounds
  | invalidInstruction
  | invalidOpcode
  | invalidOperand
  | overflow
  | divisionByZero
  | inputOutOfRange
  | inputAborted
deriving DecidableEq, Repr

/-- The operations an Overflow can name (10_state.md R27). -/
inductive ArithOp where
  | add
  | subtract
  | multiply
deriving DecidableEq, Repr

/-- `FAULT.detail` (10_state.md R27). -/
inductive FaultDetail where
  | nothing
  | opcode (n : Nat)
  | operand (n : Nat)
  | operation (op : ArithOp)
  | value (v : Int)
deriving DecidableEq, Repr

/-- The fault record `FAULT` of a Faulted core (10_state.md R27). -/
structure FaultRecord where
  kind : FaultKind
  pc : Nat
  word : Option Int
  opcode : Option Nat
  operand : Option Nat
  detail : FaultDetail
deriving DecidableEq, Repr

/-- The host's answer to an input request (41_io.md R79). -/
inductive InputAnswer where
  | value (v : Int)
  | aborted
deriving DecidableEq, Repr

/-- A request in progress with the host (10_state.md R31, 41_io.md R79): one integer wanted, or one offered. -/
inductive IoRequest where
  | input
  | output (v : Int)
deriving DecidableEq, Repr

/-- The I/O channel (41_io.md R79). `request` is the transaction in progress, if the core is inside a step; the other three
fields are the model's own record of the host's side: the answers still to be consumed, oldest first (log 4), whether
the host is taking output (log 6), and the values it has taken, oldest first (log 7). -/
structure IoChannel where
  request : Option IoRequest
  input : List InputAnswer
  outputReady : Bool
  output : List Int
deriving DecidableEq, Repr

/-- Everything the spec gives the machine (10_state.md R14), the I/O channel, and the build-time `regime` (log 1).
`fault = none` is the empty record (log 10). -/
structure State where
  regime : Regime
  mem : Memory
  acc : Int
  pc : Nat
  lifecycle : Lifecycle
  haltCause : HaltCause
  fault : Option FaultRecord
  io : IoChannel
deriving DecidableEq, Repr

/-- What stops a step of the model without a next state. The core's own faults are next states with `STATE = Faulted`
(60_exceptions.md R98, log 8), so this is only the memory's internal contract. -/
inductive Fault where
  /-- Raised by `memRead` and `memWrite` for an address the space does not have (20_memory.md R37). Safe: no word decodes to
  an instruction that reaches it (20_memory.md R38). -/
  | outOfBounds (address : Nat)
deriving DecidableEq, Repr

/-- What the model does not answer. -/
inductive Refusal where
  /-- An instruction that has no meaning yet. Safe. No arm of `exec` raises it: every instruction has its meaning. -/
  | notModelled (mnemonic : String)
  /-- Raised by `atStepBoundary`, so by every call and every accessor of the host, while a step is in progress
  (40_execution_cycle.md R77: it has no other way in). Safe. No instruction and no step raises it. -/
  | hostInsideStep
deriving DecidableEq, Repr

/-- The channel of a new instance: nothing asked, nothing answered, nothing taken, the host taking output (log 4 to 7). -/
def IoChannel.fresh : IoChannel :=
  { request := none, input := [], outputReady := true, output := [] }

/-- A newly constructed core of a regime (70_reset_and_hazards.md R113, R114). -/
def State.resetOf (r : Regime) : State :=
  { regime := r
    mem := []
    acc := 0
    pc := 0
    lifecycle := .ready
    haltCause := .notHalted
    fault := none
    io := .fresh }

/-- The machine right after reset, in the canonical regime WIDE (00_scope.md R7, log 1). -/
def State.reset : State := State.resetOf .wide

end Sys2Proof.Machine
end

