-- ==== Sys2Proof/Machine/Ops.lean ====
section
/-! DEFINITION. The named operations over memory, registers and the lifecycle: every meaning is written with these. -/

namespace Sys2Proof.Machine

/-- What a cell reads as that the list does not hold: 0 (20_memory.md R34, R39). -/
def Memory.unlisted : Int := 0

/-- One cell. -/
def Memory.read : Memory → Nat → Int
  | [], _ => Memory.unlisted
  | (k, w) :: m, a => if a = k then w else Memory.read m a

/-- A memory whose list starts with cell `a` at value `v`, which a cell that reads `unlisted` does not need. -/
def Memory.consCell (a : Nat) (v : Int) (m : Memory) : Memory :=
  if v = Memory.unlisted then m else (a, v) :: m

/-- Overwrite one cell, keeping the addresses rising and no cell listed that reads `unlisted`. -/
def Memory.write : Memory → Nat → Int → Memory
  | [], a, v => Memory.consCell a v []
  | (k, w) :: m, a, v =>
    if a < k then Memory.consCell a v ((k, w) :: m)
    else if a = k then Memory.consCell a v m
    else (k, w) :: Memory.write m a v

/-- The canonical form: addresses strictly rising, no entry equal to what an unlisted address reads as. -/
abbrev Memory.wf (m : Memory) : Prop :=
  m.Pairwise (fun x y => x.1 < y.1) ∧ ∀ c ∈ m, c.2 ≠ Memory.unlisted

/-- Write consecutive cells from address `a` upward. -/
def Memory.writeFrom : Memory → Nat → List Int → Memory
  | m, _, [] => m
  | m, a, w :: ws => Memory.writeFrom (m.write a w) (a + 1) ws

/-- Write of the accumulator. -/
def State.setAcc (s : State) (v : Int) : State := { s with acc := v }

/-- Write of the program counter. -/
def State.setPc (s : State) (a : Nat) : State := { s with pc := a }

/-- Write of the word memory. -/
def State.setMem (s : State) (m : Memory) : State := { s with mem := m }

/-- Write of `STATE`. -/
def State.setLifecycle (s : State) (l : Lifecycle) : State := { s with lifecycle := l }

/-- A change of the I/O channel. -/
def State.setIo (s : State) (c : IoChannel) : State := { s with io := c }

/-- `MemRead(addr, 1)` (20_memory.md R37). -/
def memRead (a : Nat) (s : State) : Except Fault Int :=
  if inAddr s.regime a then .ok (s.mem.read a) else .error (.outOfBounds a)

/-- `MemWrite(addr, 1, v)`: no range check on `v` (20_memory.md R37). -/
def memWrite (a : Nat) (v : Int) (s : State) : Except Fault State :=
  if inAddr s.regime a then .ok (s.setMem (s.mem.write a v)) else .error (.outOfBounds a)

/-- Go on with what a memory access gave, or stop with its failure. -/
def andThen {α : Type} (x : Except Fault α) (k : α → Host.Outcome State Fault Refusal) :
    Host.Outcome State Fault Refusal :=
  match x with
  | .ok v => k v
  | .error f => .fault f

/-- The word the cycle in progress has fetched: the cell at `PC`, none when the stage-1 check fails
(40_execution_cycle.md R66). Nothing is written before a fault (R69), so the cell still holds it then (log 9). -/
def fetchedWord (s : State) : Option Int :=
  if inAddr s.regime s.pc then some (s.mem.read s.pc) else none

/-- A field of the fetched word, `none` when no word was fetched or it is negative (10_state.md R27). -/
def fetchedField (split : Regime → Int → Nat) (s : State) : Option Nat :=
  match fetchedWord s with
  | some w => if w < 0 then none else some (split s.regime w)
  | none => none

/-- The record that a fault leaves (60_exceptions.md R98, 10_state.md R27). -/
def faultRecord (kind : FaultKind) (detail : FaultDetail) (s : State) : FaultRecord :=
  { kind := kind
    pc := s.pc
    word := fetchedWord s
    opcode := fetchedField splitOpcode s
    operand := fetchedField splitOperand s
    detail := detail }

/-- Fault entry, `raise Fault(kind, detail)` (60_exceptions.md R98): `STATE` and `FAULT`, and nothing else. There is no return
from it (R102): only `reset` and `load` leave Faulted. -/
def raiseFault (kind : FaultKind) (detail : FaultDetail) (s : State) : State :=
  { s with lifecycle := .faulted, fault := some (faultRecord kind detail s) }

/-- `halt(cause)` (00_scope.md section 6, 10_state.md R26). -/
def haltWith (cause : HaltCause) (s : State) : State :=
  { s with lifecycle := .halted, haltCause := cause }

/-- `next_seq()`: the sequential advance, or PC exhaustion at `MAX_ADDRESS` with `PC` unchanged (40_execution_cycle.md R70,
log 12). -/
def nextSeq (s : State) : State :=
  if s.pc + 1 ≤ s.regime.maxAddress then s.setPc (s.pc + 1) else haltWith .pcExhausted s

/-- `IoRead()` answered: the oldest answer is consumed and the transaction is over (41_io.md R79, 40_execution_cycle.md R69). -/
def consumeInput (rest : List InputAnswer) (s : State) : State :=
  s.setIo { s.io with request := none, input := rest }

/-- `IoWrite(v)` taken by the host: the transaction is over (41_io.md R79). -/
def giveOutput (v : Int) (s : State) : State :=
  s.setIo { s.io with request := none, output := s.io.output ++ [v] }

/-- The core blocked inside its step on a request the host has not answered: nothing else has happened
(41_io.md R79, R80; log 5). -/
def await (q : IoRequest) (s : State) : State :=
  s.setIo { s.io with request := some q }

end Sys2Proof.Machine
end

