-- ==== Sys2Proof/Machine/Operands.lean ====
section
/-! DEFINITION. The one operand form (a direct word address, 30_encoding.md R56) and the ALU's exact results
(43_arithmetic.md, 00_scope.md R12, R13). -/

namespace Sys2Proof.Machine

/-- The value of a data operand: the cell at `A`, with no base, index, displacement or extension (30_encoding.md R56, R59). -/
def readOperand (a : Nat) (s : State) (k : Int → Host.Outcome State Fault Refusal) :
    Host.Outcome State Fault Refusal :=
  andThen (memRead a s) k

/-- The target of a branch: the operand itself, an absolute address already checked at decode (44_control.md R92, R96). -/
def branchTarget (a : Nat) : Nat := a

/-- `tdiv(a, b)` for `b ≠ 0`: magnitude `floor(|a| / |b|)`, negative when the signs differ (00_scope.md R13). -/
def tdiv (a b : Int) : Int :=
  if (a < 0) = (b < 0) then ((a.natAbs / b.natAbs : Nat) : Int) else -((a.natAbs / b.natAbs : Nat) : Int)

/-- The ALU's four operations (43_arithmetic.md R86). -/
inductive AluOp where
  | add
  | subtract
  | multiply
  | divide
deriving DecidableEq, Repr

/-- The exact result of an operation (43_arithmetic.md R85, R87 to R90): `ACC` is the left operand. -/
def aluResult (op : AluOp) (acc m : Int) : Int :=
  match op with
  | .add => acc + m
  | .subtract => acc - m
  | .multiply => acc * m
  | .divide => tdiv acc m

end Sys2Proof.Machine
end

