-- ==== Sys2Proof/Machine/Flags.lean ====
section
/-! DEFINITION. The core has no flag register (10_state.md R29): these are the signals that live inside one step, and what
the overflow signal decides. -/

namespace Sys2Proof.Machine

/-- The overflow signal `ovf = not inWord(c)` (43_arithmetic.md R85). -/
def ovf (r : Regime) (c : Int) : Bool := !decide (inWord r c)

/-- The condition of BRANCHNEG, `acc < 0` (10_state.md R29). -/
def accNegative (s : State) : Bool := decide (s.acc < 0)

/-- The condition of BRANCHZERO, `acc = 0` (10_state.md R29). -/
def accZero (s : State) : Bool := decide (s.acc = 0)

/-- Commit of a candidate result: `Overflow{op}` with `ACC` kept, or the write of `ACC` and the sequential advance
(43_arithmetic.md R85). -/
def commitChecked (op : ArithOp) (c : Int) (s : State) : State :=
  if ovf s.regime c then raiseFault .overflow (.operation op) s else nextSeq (s.setAcc c)

end Sys2Proof.Machine
end

