-- ==== Sys2Proof/Machine/Arithmetic.lean ====
section
/-! DEFINITION. ADD, SUBTRACT, DIVIDE and MULTIPLY (43_arithmetic.md R87 to R90). -/

namespace Sys2Proof.Machine

/-- ADD: `acc <- acc + MEM[A]`, range-checked (43_arithmetic.md R87). -/
def execAdd (a : Nat) (s : State) : Host.Outcome State Fault Refusal :=
  readOperand a s fun m => .next (commitChecked .add (aluResult .add s.acc m) s)

/-- SUBTRACT: `acc <- acc - MEM[A]`, range-checked (43_arithmetic.md R88). -/
def execSubtract (a : Nat) (s : State) : Host.Outcome State Fault Refusal :=
  readOperand a s fun m => .next (commitChecked .subtract (aluResult .subtract s.acc m) s)

/-- DIVIDE: the quotient rounded toward zero; a zero divisor faults whatever `ACC` holds, and no range check is needed
(43_arithmetic.md R89, R91). -/
def execDivide (a : Nat) (s : State) : Host.Outcome State Fault Refusal :=
  readOperand a s fun m =>
    if m = 0 then .next (raiseFault .divisionByZero .nothing s) else .next (nextSeq (s.setAcc (aluResult .divide s.acc m)))

/-- MULTIPLY: `acc <- acc * MEM[A]`, range-checked (43_arithmetic.md R90). -/
def execMultiply (a : Nat) (s : State) : Host.Outcome State Fault Refusal :=
  readOperand a s fun m => .next (commitChecked .multiply (aluResult .multiply s.acc m) s)

end Sys2Proof.Machine
end

