-- ==== Sys2Proof/Machine/Control.lean ====
section
/-! DEFINITION. BRANCH, BRANCHNEG, BRANCHZERO and HALT (44_control.md R92 to R95). -/

namespace Sys2Proof.Machine

/-- BRANCH: `pc <- A`, and no sequential advance (44_control.md R92). -/
def execBranch (a : Nat) (s : State) : Host.Outcome State Fault Refusal :=
  .next (s.setPc (branchTarget a))

/-- BRANCHNEG: to `A` if `acc < 0`, else the sequential advance (44_control.md R93). -/
def execBranchneg (a : Nat) (s : State) : Host.Outcome State Fault Refusal :=
  if accNegative s then .next (s.setPc (branchTarget a)) else .next (nextSeq s)

/-- BRANCHZERO: to `A` if `acc = 0`, else the sequential advance (44_control.md R94). -/
def execBranchzero (a : Nat) (s : State) : Host.Outcome State Fault Refusal :=
  if accZero s then .next (s.setPc (branchTarget a)) else .next (nextSeq s)

/-- HALT: normal end, `PC` at the HALT's own address; the operand is not used (44_control.md R95, 30_encoding.md R59). -/
def execHalt (_a : Nat) (s : State) : Host.Outcome State Fault Refusal :=
  .next (haltWith .haltInstruction s)

end Sys2Proof.Machine
end

