-- ==== Sys2Proof/Machine/InputOutput.lean ====
section
/-! DEFINITION. The I/O instructions READ and WRITE (41_io.md R81, R82). -/

namespace Sys2Proof.Machine

/-- READ (41_io.md R81). With no answer from the host the step stays blocked (R80, log 5). -/
def execRead (a : Nat) (s : State) : Host.Outcome State Fault Refusal :=
  match s.io.input with
  | [] => .next (await .input s)
  | .aborted :: rest => .next (raiseFault .inputAborted .nothing (consumeInput rest s))
  | .value v :: rest =>
    if inWord s.regime v then
      andThen (memWrite a v (consumeInput rest s)) fun t => .next (nextSeq t)
    else .next (raiseFault .inputOutOfRange (.value v) (consumeInput rest s))

/-- WRITE (41_io.md R82). With a host that is not taking output the step stays blocked (R80, log 5, log 6). -/
def execWrite (a : Nat) (s : State) : Host.Outcome State Fault Refusal :=
  readOperand a s fun v =>
    if s.io.outputReady then .next (nextSeq (giveOutput v s)) else .next (await (.output v) s)

end Sys2Proof.Machine
end

