-- ==== Sys2Proof/Machine/LoadStore.lean ====
section
/-! DEFINITION. LOAD and STORE (42_load_store.md R83, R84). -/

namespace Sys2Proof.Machine

/-- LOAD: `acc <- MEM[A]` (42_load_store.md R83). -/
def execLoad (a : Nat) (s : State) : Host.Outcome State Fault Refusal :=
  readOperand a s fun v => .next (nextSeq (s.setAcc v))

/-- STORE: `MEM[A] <- acc` (42_load_store.md R84). -/
def execStore (a : Nat) (s : State) : Host.Outcome State Fault Refusal :=
  andThen (memWrite a s.acc s) fun t => .next (nextSeq t)

end Sys2Proof.Machine
end

