-- ==== Sys2Proof/Machine/Cycle.lean ====
section
/-! DEFINITION. The fetch-decode-execute cycle and what `step` does in each execution state
(40_execution_cycle.md R64 to R68, R72, R73); the placing of a word where the cycle fetches. -/

namespace Sys2Proof.Machine

/-- The fault that a word which is no instruction raises (60_exceptions.md R97). -/
def decodeFault (e : DecodeError) (s : State) : State :=
  match e with
  | .invalidInstruction => raiseFault .invalidInstruction .nothing s
  | .invalidOperand a => raiseFault .invalidOperand (.operand a) s
  | .invalidOpcode op => raiseFault .invalidOpcode (.opcode op) s

/-- One instruction cycle: PC check, fetch, decode, dispatch (40_execution_cycle.md R66). -/
def cycle (s : State) : Host.Outcome State Fault Refusal :=
  if inAddr s.regime s.pc then
    andThen (memRead s.pc s) fun w =>
      match decode s.regime w with
      | .ok i => exec i s
      | .error e => .next (decodeFault e s)
  else .next (raiseFault .programCounterOutOfBounds .nothing s)

/-- `step()` by execution state: Ready becomes Running and runs one cycle (R64), Running runs one cycle (R65), Halted and
Faulted do nothing (R72, R73). While a request to the host is in progress, a step of the model is another attempt at the
cycle in progress: nothing was written, so it fetches the same word and meets the same request (log 5). -/
def stepBody (s : State) : Host.Outcome State Fault Refusal :=
  match s.lifecycle with
  | .ready => cycle (s.setLifecycle .running)
  | .running => cycle s
  | .halted => .next s
  | .faulted => .next s

/-- A state whose next step runs a cycle from a real address: a terminal core is put back to Ready, a request in progress
and an out-of-range `PC` are dropped; anything else is left alone (log 13). -/
def armed (s : State) : State :=
  let t := s.setPc (if inAddr s.regime s.pc then s.pc else 0)
  let u := t.setIo { t.io with request := none }
  if s.lifecycle = .halted ∨ s.lifecycle = .faulted then
    { u with lifecycle := .ready, haltCause := .notHalted, fault := none }
  else u

/-- `armed s` with the word of value `w` in the cell the next step fetches. -/
def placeFetchWord (w : Nat) (s : State) : State :=
  (armed s).setMem ((armed s).mem.write (armed s).pc (w : Int))

end Sys2Proof.Machine
end

