-- ==== Sys2Proof/Machine/Step.lean ====
section
/-! DEFINITION. The step function (40_execution_cycle.md R64 to R73) and the state in which it runs a given word. -/

namespace Sys2Proof.Machine

/-- One `step()` of the core. -/
def step (s : State) : Host.Outcome State Fault Refusal := Sys2Proof.Machine.stepBody s

/-- `s` with the word of value `w` where `step` fetches its next instruction (log 13). -/
def State.withFetchWord (s : State) (_nbits w : Nat) : State := Sys2Proof.Machine.placeFetchWord w s

end Sys2Proof.Machine
end

