-- ==== Sys2Proof/Machine/Realisation.lean ====
section
/-! DEFINITION. The binary realisation's view of words, the PC, the split fields and the ALU's intermediate results
(00_scope.md R10, 43_arithmetic.md R86). No instruction and no accessor sees these bits (log 19). -/

namespace Sys2Proof.Machine

/-- A word as `WORD_BITS` two's-complement bits (00_scope.md R10). -/
def physicalWord (r : Regime) (v : Int) : BitVec r.wordBits := BitVec.ofInt r.wordBits v

/-- A program counter value as `ADDR_BITS` unsigned bits (00_scope.md R10). -/
def physicalPc (r : Regime) (a : Nat) : BitVec r.addrBits := BitVec.ofNat r.addrBits a

/-- A split field as `FIELD_BITS` unsigned bits (00_scope.md R10). -/
def physicalField (r : Regime) (n : Nat) : BitVec r.fieldBits := BitVec.ofNat r.fieldBits n

/-- The width of an intermediate result that loses nothing (43_arithmetic.md R86). -/
def aluBits : Regime → AluOp → Nat
  | .wide, .add => 22
  | .wide, .subtract => 22
  | .wide, .multiply => 41
  | .wide, .divide => 21
  | .narrow, .add => 16
  | .narrow, .subtract => 16
  | .narrow, .multiply => 28
  | .narrow, .divide => 15

/-- The operation on two's-complement values of a given width, wrapping as binary circuits do; signed division there rounds
toward zero. -/
def binaryResult (op : AluOp) {n : Nat} (x y : BitVec n) : BitVec n :=
  match op with
  | .add => x + y
  | .subtract => x - y
  | .multiply => x * y
  | .divide => x.sdiv y

/-- The intermediate result a binary ALU of the widths of 43_arithmetic.md R86 computes from two words. -/
def physicalResult (r : Regime) (op : AluOp) (x y : Int) : BitVec (aluBits r op) :=
  binaryResult op ((physicalWord r x).signExtend (aluBits r op)) ((physicalWord r y).signExtend (aluBits r op))

end Sys2Proof.Machine
end

