-- ==== Sys2Proof/Machine/HostOps.lean ====
section
/-! DEFINITION. The host's side of the core: reset, load, the result of a step, run, the accessors and the status view, and the
host's moves on the I/O channel (10_state.md R30, R32, 40_execution_cycle.md R71 to R77, 41_io.md R79,
70_reset_and_hazards.md R113 to R116). -/

namespace Sys2Proof.Machine

/-- What `reset()` does to a core at a step boundary (70_reset_and_hazards.md R113): every piece of architectural state to its reset value. The instance keeps its
regime and the I/O channel it was bound to when it was constructed (R114, log 15). -/
def resetCore (s : State) : State := { State.resetOf s.regime with io := s.io }

/-- The errors of `load` (60_exceptions.md R112); the index is 1-based in the image. -/
inductive LoadError where
  | capacityExceeded (index : Nat)
  | formatError (index : Nat)
deriving DecidableEq, Repr

/-- The first offending entry of an image, checked from index `i` on: capacity first, then range
(70_reset_and_hazards.md R115). -/
def loadCheck (r : Regime) : Nat → List Int → Option LoadError
  | _, [] => none
  | i, w :: ws =>
    if r.memWords < i then some (.capacityExceeded i)
    else if inWord r w then loadCheck r (i + 1) ws
    else some (.formatError i)

/-- What `load(image)` does to a core at a step boundary (70_reset_and_hazards.md R115): the error, if any, and the state after. A load that fails changes nothing
(R116); one that succeeds resets, then writes from address 0. -/
def loadImage (image : List Int) (s : State) : Option LoadError × State :=
  match loadCheck s.regime 1 image with
  | some e => (some e, s)
  | none => (none, (resetCore s).setMem ((resetCore s).mem.writeFrom 0 image))

/-- What `step()` returns (40_execution_cycle.md R71). -/
inductive StepResult where
  | running
  | halted (cause : HaltCause)
  | err (fault : FaultRecord)
deriving DecidableEq, Repr

/-- The result of a step that left the core in state `s`. A core inside its step has returned nothing yet (41_io.md R80), and
no step leaves a core Ready. -/
def stepResult (s : State) : Option StepResult :=
  if s.io.request = none then
    match s.lifecycle with
    | .ready => none
    | .running => some .running
    | .halted => some (.halted s.haltCause)
    | .faulted => s.fault.map .err
  else none

/-- `run()` with a host's step cap (40_execution_cycle.md R74, R75): steps until one does not return `Ok(Running)`. The core has
no cap of its own: a run that no cap ends has no result (R76, log 17). -/
def runFor : Nat → State → Host.Outcome State Fault Refusal
  | 0, s => .next s
  | n + 1, s =>
    match step s with
    | .next t => if stepResult t = some .running then runFor n t else .next t
    | .fault f => .fault f
    | .refused q => .refused q

/-- What the host asks of the core at a step boundary, the only place where it can (40_execution_cycle.md R77): during a step it
sees nothing but the I/O request (10_state.md R31), and the model refuses (log 14). -/
def atStepBoundary {α : Type} (view : State → α) (s : State) : Except Refusal α :=
  if s.io.request = none then .ok (view s) else .error .hostInsideStep

/-- The host's control operations (10_state.md R30), `run` with the host's step cap (40_execution_cycle.md R75, log 17). -/
inductive HostCall where
  | reset
  | load (image : List Int)
  | step
  | run (cap : Nat)
deriving DecidableEq, Repr

/-- What a control operation does to a core at a step boundary. -/
def HostCall.perform (c : HostCall) (s : State) : Host.Outcome State Fault Refusal :=
  match c with
  | .reset => .next (resetCore s)
  | .load image => .next (loadImage image s).2
  | .step => Sys2Proof.Machine.step s
  | .run cap => runFor cap s

/-- A call of the host (40_execution_cycle.md R77, log 14). -/
def hostCall (c : HostCall) (s : State) : Host.Outcome State Fault Refusal :=
  match atStepBoundary c.perform s with
  | .ok answer => answer
  | .error q => .refused q

/-- `load(image)` as the host calls it, with the error it reports (60_exceptions.md R112, 40_execution_cycle.md R77). -/
def hostLoad (image : List Int) : State → Except Refusal (Option LoadError × State) := atStepBoundary (loadImage image)

/-- The host gives one more answer for an input request (41_io.md R79, log 4). -/
def hostAnswer (answer : InputAnswer) (s : State) : State :=
  s.setIo { s.io with input := s.io.input ++ [answer] }

/-- The host starts or stops taking output (41_io.md R79, R80, log 6). -/
def hostTakesOutput (ready : Bool) (s : State) : State :=
  s.setIo { s.io with outputReady := ready }

/-- The read-only memory snapshot, cell 0 first (10_state.md R32). -/
def memorySnapshot : State → Except Refusal (List Int) :=
  atStepBoundary fun s => (List.range s.regime.memWords).map s.mem.read

/-- The accumulator accessor (10_state.md R32). -/
def accumulator : State → Except Refusal Int := atStepBoundary State.acc

/-- The program counter accessor (10_state.md R32). -/
def programCounter : State → Except Refusal Nat := atStepBoundary State.pc

/-- The code of `STATE` (10_state.md R30). -/
def Lifecycle.code : Lifecycle → Nat
  | .ready => 0
  | .running => 1
  | .halted => 2
  | .faulted => 3

/-- The code of `HALT_CAUSE` (10_state.md R30). -/
def HaltCause.code : HaltCause → Nat
  | .notHalted => 0
  | .haltInstruction => 1
  | .pcExhausted => 2

/-- The code of a fault kind (60_exceptions.md R97). -/
def FaultKind.code : FaultKind → Nat
  | .programCounterOutOfBounds => 1
  | .invalidInstruction => 2
  | .invalidOpcode => 3
  | .invalidOperand => 4
  | .overflow => 5
  | .divisionByZero => 6
  | .inputOutOfRange => 7
  | .inputAborted => 8

/-- `FAULT.kind` as a code, 0 for the empty record (10_state.md R28, R30). -/
def faultKindCode (s : State) : Nat :=
  match s.fault with
  | some f => f.kind.code
  | none => 0

/-- The 16 bits of `STATUS` (10_state.md R30): state in bits 1:0, halt cause in 3:2, fault kind in 7:4, 15:8 read 0. -/
def statusBits (s : State) : BitVec 16 :=
  0#8 ++ BitVec.ofNat 4 (faultKindCode s) ++ BitVec.ofNat 2 s.haltCause.code ++ BitVec.ofNat 2 s.lifecycle.code

/-- The view `STATUS` (10_state.md R30, R32). -/
def status : State → Except Refusal (BitVec 16) := atStepBoundary statusBits

/-- A view of one field of `FAULT`: a value with a valid bit, both zero when the field is none (10_state.md R30). -/
structure FaultView where
  valid : Bool
  value : Int
deriving DecidableEq, Repr

/-- The view of an optional value. -/
def FaultView.ofOption : Option Int → FaultView
  | some v => { valid := true, value := v }
  | none => { valid := false, value := 0 }

/-- The view of a field that a fault record may lack. -/
def faultField (field : FaultRecord → Option Int) : State → Except Refusal FaultView :=
  atStepBoundary fun s => .ofOption (s.fault.bind field)

/-- An operation as a number: its opcode (30_encoding.md R57; log 10). -/
def ArithOp.code : ArithOp → Int
  | .add => 30
  | .subtract => 31
  | .multiply => 33

/-- `FAULT.detail` as a number, if the kind has a detail (10_state.md R27, 60_exceptions.md R97; log 10). -/
def FaultDetail.number : FaultDetail → Option Int
  | .nothing => none
  | .opcode n => some n
  | .operand n => some n
  | .operation op => some op.code
  | .value v => some v

/-- `FAULT_PC` (10_state.md R30). -/
def faultPc : State → Except Refusal FaultView := faultField fun f => some f.pc

/-- `FAULT_WORD` (10_state.md R30). -/
def faultWord : State → Except Refusal FaultView := faultField fun f => f.word

/-- `FAULT_OPCODE` (10_state.md R30). -/
def faultOpcode : State → Except Refusal FaultView := faultField fun f => f.opcode.map fun n => (n : Int)

/-- `FAULT_OPERAND` (10_state.md R30). -/
def faultOperand : State → Except Refusal FaultView := faultField fun f => f.operand.map fun n => (n : Int)

/-- `FAULT_DETAIL` (10_state.md R30). -/
def faultDetail : State → Except Refusal FaultView := faultField fun f => f.detail.number

end Sys2Proof.Machine
end

