-- ==== Sys2Proof/Machine/TextLoader.lean ====
section
/-! DEFINITION. The host's text loader (70_reset_and_hazards.md R117 to R119): host software, outside the core (00_scope.md R5),
modelled as the procedure from a program text to the word list that `load` takes (log 16). -/

namespace Sys2Proof.Machine

/-- The errors of the text loader (60_exceptions.md R112): the physical line number from 1, and the raw line. -/
inductive TextError where
  | formatError (line : Nat) (text : List Char)
  | capacityExceeded (line : Nat)
deriving DecidableEq, Repr

/-- What one line is (70_reset_and_hazards.md R117). -/
inductive LineKind where
  | skipped
  | accepted (v : Int)
  | malformed
deriving DecidableEq, Repr

/-- A line as its characters, last first, without the CR of a CR LF. -/
def dropCr : List Char → List Char
  | '\r' :: cs => cs
  | cs => cs

/-- The physical lines of a text, terminators LF and CR LF removed (70_reset_and_hazards.md R117); the second argument holds the
characters of the current line, last first. -/
def linesFrom : List Char → List Char → List (List Char)
  | [], [] => []
  | [], line => [line.reverse]
  | '\n' :: cs, line => (dropCr line).reverse :: linesFrom cs []
  | c :: cs, line => linesFrom cs (c :: line)

/-- The physical lines of a program text. -/
def linesOf (text : List Char) : List (List Char) := linesFrom text []

/-- The ASCII code of the digit 0; the ten digits follow one another. -/
def digitBase : Nat := 48

/-- An ASCII decimal digit (70_reset_and_hazards.md R117). -/
def isDigit (c : Char) : Bool := decide (digitBase ≤ c.toNat) && decide (c.toNat ≤ digitBase + 9)

/-- The value of a digit. -/
def digitOf (c : Char) : Nat := c.toNat - digitBase

/-- The value of a row of decimal digits, most significant first. -/
def digitsValue (ds : List Char) : Nat := ds.foldl (fun acc c => 10 * acc + digitOf c) 0

/-- `DIGITS` digits and nothing else (70_reset_and_hazards.md R117). -/
def isMagnitude (r : Regime) (ds : List Char) : Bool := decide (ds.length = r.digits) && ds.all isDigit

/-- The value of an accepted line is its sign applied to its digits, checked again against the word range
(70_reset_and_hazards.md R118). -/
def acceptIf (r : Regime) (ok : Bool) (v : Int) : LineKind :=
  if ok && decide (inWord r v) then .accepted v else .malformed

/-- One line: blank, comment, a word, or malformed (70_reset_and_hazards.md R117, R118). -/
def readLine (r : Regime) (line : List Char) : LineKind :=
  if line.all (fun c => c = ' ' || c = '\t') then .skipped
  else
    match line with
    | '#' :: _ => .skipped
    | '+' :: ds => acceptIf r (isMagnitude r ds) (digitsValue ds)
    | '-' :: ds => acceptIf r (isMagnitude r ds) (-(digitsValue ds : Int))
    | _ => .malformed

/-- The words of the lines from physical line `n` on, `count` words having been accepted before; the first offending line
stops it, whether its problem is format or capacity (70_reset_and_hazards.md R119). -/
def wordsFrom (r : Regime) : Nat → Nat → List (List Char) → Except TextError (List Int)
  | _, _, [] => .ok []
  | n, count, line :: rest =>
    match readLine r line with
    | .skipped => wordsFrom r (n + 1) count rest
    | .malformed => .error (.formatError n line)
    | .accepted v =>
      if r.memWords ≤ count then .error (.capacityExceeded n)
      else
        match wordsFrom r (n + 1) (count + 1) rest with
        | .ok ws => .ok (v :: ws)
        | .error e => .error e

/-- The word list of a program text (70_reset_and_hazards.md R117 to R119). -/
def parseText (r : Regime) (text : List Char) : Except TextError (List Int) := wordsFrom r 1 0 (linesOf text)

/-- The last `k` decimal digits of a number, most significant first. -/
def digitRow : Nat → Nat → List Char
  | 0, _ => []
  | k + 1, n => digitRow k (n / 10) ++ [Char.ofNat (digitBase + n % 10)]

/-- A word's text form: its sign, then its magnitude in exactly `DIGITS` digits (30_encoding.md R62, 95_test_vectors.md W1). -/
def formatWord (r : Regime) (w : Int) : List Char :=
  (if w < 0 then '-' else '+') :: digitRow r.digits w.natAbs

/-- Loading a program text, at a step boundary like every host operation (40_execution_cycle.md R77, log 14): every line is checked
before the core is touched (70_reset_and_hazards.md R119). -/
def loadText (text : List Char) : State → Except Refusal (Option TextError × State) :=
  atStepBoundary fun s =>
    match parseText s.regime text with
    | .error e => (some e, s)
    | .ok ws => (none, (loadImage ws s).2)

end Sys2Proof.Machine
end

