-- ==== Sys2Proof/Safety.lean ====
section
/-! DEFINITION. The terms claims about runs use: the invariant of every state the core can be in, a clean end, a stuck core. -/

namespace Sys2Proof.Machine

/-- Every cell the list holds is a cell of the space and holds a word (20_memory.md R34, R36). -/
def Memory.InRange (r : Regime) (m : Memory) : Prop := ∀ c ∈ m, inAddr r c.1 ∧ inWord r c.2

/-- The request in progress, if any, is the one that the instruction at `PC` makes (41_io.md R79, R81, R82). -/
def RequestMatches (s : State) : Prop :=
  match s.io.request with
  | none => True
  | some .input => ∃ a, decode s.regime (s.mem.read s.pc) = .ok (.read a)
  | some (.output v) => ∃ a, decode s.regime (s.mem.read s.pc) = .ok (.write a) ∧ s.mem.read a = v

/-- What holds in every state the core can be in: the ranges of ACC, PC and every cell (10_state.md R17, R19,
20_memory.md R36), the memory's canonical form (log 3), HALT_CAUSE and FAULT as the execution state has them (10_state.md
R26, R27, 60_exceptions.md R98, R103), and a request in progress only inside a step of a Running core. -/
structure Inv (s : State) : Prop where
  memWf : s.mem.wf
  memInRange : s.mem.InRange s.regime
  accInWord : inWord s.regime s.acc
  pcInAddr : inAddr s.regime s.pc
  haltCauseIff : s.haltCause ≠ .notHalted ↔ s.lifecycle = .halted
  faultIff : s.fault.isSome ↔ s.lifecycle = .faulted
  faultRecords : ∀ f, s.fault = some f → f = faultRecord f.kind f.detail s
  requestRunning : s.io.request ≠ none → s.lifecycle = .running
  requestMatches : RequestMatches s

/-- A clean end under every reading of the source: halted by the HALT instruction (90_conflicts.md C2). -/
def CleanEnd (s : State) : Prop := s.lifecycle = .halted ∧ s.haltCause = .haltInstruction

/-- The core is inside a step on a request the host has not answered: not halted, not faulted, and a further attempt at the
step changes nothing (41_io.md R80, log 5). -/
def Stuck (s : State) : Prop := s.lifecycle = .running ∧ s.io.request ≠ none ∧ step s = .next s

/-- The core can run an instruction: it is Ready or Running (40_execution_cycle.md R64, R65). -/
def Steppable (s : State) : Prop := s.lifecycle = .ready ∨ s.lifecycle = .running

end Sys2Proof.Machine
end

