-- ==== Sys2Proof/Certificates/Slice0/Obligations.lean ====
section
/-! DEFINITION. The statements for the provers, each about the machine and none about a program. -/

open Sys2Proof Sys2Proof.Machine

/-! ## Encoding -/

/-- 30_encoding.md R54, R63: every instruction whose operand is an address has a word of the regime, and that word decodes to
it, operand and all. -/
def Obligations.DecodeOfEncode : Prop :=
  ∀ (r : Regime) (i : Instr), WellFormed r i →
    0 ≤ encode r i ∧ encode r i ≤ r.maxWord ∧ decode r (encode r i) = .ok i

/-- 30_encoding.md R63: a word that decodes is the word of that one instruction, whose operand is an address. -/
def Obligations.EncodeOfDecode : Prop :=
  ∀ (r : Regime) (w : Int) (i : Instr), decode r w = .ok i → WellFormed r i ∧ encode r i = w

/-- 30_encoding.md R53: the format OA, by digit groups and by `div` and `mod`, with the ranges of words and fields. -/
def Obligations.FieldsAreDecimalDigitGroups : Prop :=
  (∀ w : Int, 0 ≤ w → w ≤ 999999 →
    splitOpcode .wide w = decimalField 5 3 w.toNat ∧ splitOpcode .wide w = w.toNat / 1000 ∧ splitOpcode .wide w ≤ 999 ∧
    splitOperand .wide w = decimalField 2 0 w.toNat ∧ splitOperand .wide w = w.toNat % 1000 ∧ splitOperand .wide w ≤ 999) ∧
  (∀ w : Int, 0 ≤ w → w ≤ 9999 →
    splitOpcode .narrow w = decimalField 3 2 w.toNat ∧ splitOpcode .narrow w = w.toNat / 100 ∧
    splitOpcode .narrow w ≤ 99 ∧
    splitOperand .narrow w = decimalField 1 0 w.toNat ∧ splitOperand .narrow w = w.toNat % 100 ∧
    splitOperand .narrow w ≤ 99) ∧
  splitOpcode .wide 10002 = 10 ∧ splitOperand .wide 10002 = 2

/-- 30_encoding.md R60: the sign check, then the operand range, then the opcode, and the first that fails decides; so a word with
an out-of-range operand and an unassigned opcode is an invalid operand. -/
def Obligations.DecodeChecksInOrder : Prop :=
  (∀ (r : Regime) (w : Int),
    (w < 0 → decode r w = .error .invalidInstruction) ∧
    (0 ≤ w → ¬ inAddr r (splitOperand r w) → decode r w = .error (.invalidOperand (splitOperand r w))) ∧
    (0 ≤ w → inAddr r (splitOperand r w) → ofOpcode (splitOpcode r w) (splitOperand r w) = none →
      decode r w = .error (.invalidOpcode (splitOpcode r w)))) ∧
  decode .wide 999999 = .error (.invalidOperand 999)

/-- 40_execution_cycle.md R68: one operation per assigned opcode, and `InvalidOpcode` for every other value, for every operand
that is an address; the dispatcher's arms are the twelve operations. -/
def Obligations.DispatcherHasOneArmPerOpcode : Prop :=
  (∀ (r : Regime) (op a : Nat), inAddr r a →
    decode r (enc r op a) =
      if op = 10 then .ok (.read a) else if op = 11 then .ok (.write a)
      else if op = 20 then .ok (.load a) else if op = 21 then .ok (.store a)
      else if op = 30 then .ok (.add a) else if op = 31 then .ok (.subtract a)
      else if op = 32 then .ok (.divide a) else if op = 33 then .ok (.multiply a)
      else if op = 40 then .ok (.branch a) else if op = 41 then .ok (.branchneg a)
      else if op = 42 then .ok (.branchzero a) else if op = 43 then .ok (.halt a)
      else .error (.invalidOpcode op)) ∧
  (∀ (a : Nat) (s : State),
    exec (.read a) s = execRead a s ∧ exec (.write a) s = execWrite a s ∧
    exec (.load a) s = execLoad a s ∧ exec (.store a) s = execStore a s ∧
    exec (.add a) s = execAdd a s ∧ exec (.subtract a) s = execSubtract a s ∧
    exec (.divide a) s = execDivide a s ∧ exec (.multiply a) s = execMultiply a s ∧
    exec (.branch a) s = execBranch a s ∧ exec (.branchneg a) s = execBranchneg a s ∧
    exec (.branchzero a) s = execBranchzero a s ∧ exec (.halt a) s = execHalt a s) ∧
  (∀ (op : Nat) (s : State),
    decodeFault (.invalidOpcode op) s = raiseFault .invalidOpcode (.opcode op) s)

/-- 30_encoding.md R58 (whose last sentence the spec marks as derived): every unassigned opcode faults with InvalidOpcode, there
are 988 of them in WIDE and 88 in NARROW, and the all-zero word is one. -/
def Obligations.UnassignedOpcodesFault : Prop :=
  (∀ (s : State) (op a : Nat), Steppable s → inAddr s.regime s.pc → op ≤ s.regime.opcodeMax → inAddr s.regime a →
    op ∉ [10, 11, 20, 21, 30, 31, 32, 33, 40, 41, 42, 43] → s.mem.read s.pc = enc s.regime op a →
    step s = .next { s with
      lifecycle := .faulted, fault := some (faultRecord .invalidOpcode (.opcode op) s) }) ∧
  ((List.range (Regime.opcodeMax .wide + 1)).countP fun op => (ofOpcode op 0).isNone) = 988 ∧
  ((List.range (Regime.opcodeMax .narrow + 1)).countP fun op => (ofOpcode op 0).isNone) = 88 ∧
  (∀ r : Regime, decode r 0 = .error (.invalidOpcode 0))

/-- 30_encoding.md R57, R61: one word of each operation, written out from the encoding column, in both regimes. -/
def Obligations.SampleWordsDecode : Prop :=
  decode .wide 10249 = .ok (.read 249) ∧ decode .wide 11020 = .ok (.write 20) ∧
  decode .wide 20002 = .ok (.load 2) ∧ decode .wide 21030 = .ok (.store 30) ∧
  decode .wide 30050 = .ok (.add 50) ∧ decode .wide 31050 = .ok (.subtract 50) ∧
  decode .wide 32050 = .ok (.divide 50) ∧ decode .wide 33050 = .ok (.multiply 50) ∧
  decode .wide 40002 = .ok (.branch 2) ∧ decode .wide 41004 = .ok (.branchneg 4) ∧
  decode .wide 42009 = .ok (.branchzero 9) ∧ decode .wide 43000 = .ok (.halt 0) ∧
  decode .narrow 1099 = .ok (.read 99) ∧ decode .narrow 2004 = .ok (.load 4) ∧
  decode .narrow 3310 = .ok (.multiply 10) ∧ decode .narrow 4399 = .ok (.halt 99)

/-- 30_encoding.md R61: the NARROW instruction `op*100 + a` and the WIDE instruction `op*1000 + a` are the same operation on the
same address. -/
def Obligations.RegimesAgreeOnOperations : Prop :=
  ∀ (op a : Nat) (i : Instr), op ≤ 99 → a ≤ 99 →
    (decode .narrow ((op * 100 + a : Nat) : Int) = .ok i ↔ decode .wide ((op * 1000 + a : Nat) : Int) = .ok i)

/-! ## The cycle -/

/-- 40_execution_cycle.md R64 to R66: from Ready or Running, with `PC` in range, a step is the execution of the instruction the
fetched word decodes to, by the core made Running; stepping from Ready is the spec's decision D8. -/
def Obligations.StepRunsDecodedInstruction : Prop :=
  ∀ (s : State) (i : Instr), Steppable s → inAddr s.regime s.pc → decode s.regime (s.mem.read s.pc) = .ok i →
    step s = exec i { s with lifecycle := .running }

/-- 40_execution_cycle.md R67: the first check that fails, in the order PC, sign, operand, opcode, decides the step's one fault;
past them, a fault is the executed instruction's own. -/
def Obligations.StepFaultPriority : Prop :=
  ∀ s : State, Steppable s →
    (¬ inAddr s.regime s.pc →
      step s = .next { s with
        lifecycle := .faulted, fault := some (faultRecord .programCounterOutOfBounds .nothing s) }) ∧
    (inAddr s.regime s.pc → s.mem.read s.pc < 0 →
      step s = .next { s with
        lifecycle := .faulted, fault := some (faultRecord .invalidInstruction .nothing s) }) ∧
    (inAddr s.regime s.pc → ¬ s.mem.read s.pc < 0 → ¬ inAddr s.regime (splitOperand s.regime (s.mem.read s.pc)) →
      step s = .next { s with
        lifecycle := .faulted,
        fault := some (faultRecord .invalidOperand (.operand (splitOperand s.regime (s.mem.read s.pc))) s) }) ∧
    (inAddr s.regime s.pc → ¬ s.mem.read s.pc < 0 → inAddr s.regime (splitOperand s.regime (s.mem.read s.pc)) →
      splitOpcode s.regime (s.mem.read s.pc) ∉ [10, 11, 20, 21, 30, 31, 32, 33, 40, 41, 42, 43] →
      step s = .next { s with
        lifecycle := .faulted,
        fault := some (faultRecord .invalidOpcode (.opcode (splitOpcode s.regime (s.mem.read s.pc))) s) }) ∧
    (∀ (i : Instr) (t : State), inAddr s.regime s.pc → decode s.regime (s.mem.read s.pc) = .ok i → step s = .next t →
      t.lifecycle = .faulted →
      ∃ f, t.fault = some f ∧
        ((∃ a, i = .read a ∧ (f.kind = .inputAborted ∨ f.kind = .inputOutOfRange)) ∨
         (∃ a, (i = .add a ∨ i = .subtract a ∨ i = .multiply a) ∧ f.kind = .overflow) ∨
         (∃ a, i = .divide a ∧ f.kind = .divisionByZero)))

/-- 40_execution_cycle.md R72, R73 (the spec's decisions D6, D7): a step in Halted or Faulted does nothing, and its result is the
same halt cause or the same fault record. -/
def Obligations.TerminalStepsDoNothing : Prop :=
  ∀ s : State, Inv s →
    (s.lifecycle = .halted → step s = .next s ∧ stepResult s = some (.halted s.haltCause)) ∧
    (s.lifecycle = .faulted → step s = .next s ∧ ∃ f, s.fault = some f ∧ stepResult s = some (.err f))

/-- 20_memory.md R38 (which the spec marks as derived): the memory's OutOfBounds never comes out of a step: from every state, a step
answers a next state. -/
def Obligations.StepAlwaysAnswersNext : Prop := ∀ s : State, ∃ t, step s = .next t

/-- 20_memory.md R37: the two access primitives. -/
def Obligations.MemoryAccessPrimitives : Prop :=
  ∀ (s : State) (a : Nat) (v : Int),
    (a ≤ s.regime.maxAddress → memRead a s = .ok (s.mem.read a)) ∧
    (¬ a ≤ s.regime.maxAddress → memRead a s = .error (.outOfBounds a)) ∧
    (a ≤ s.regime.maxAddress → s.mem.wf →
      ∃ m, memWrite a v s = .ok { s with mem := m } ∧ m.read a = v ∧ ∀ b, b ≠ a → m.read b = s.mem.read b) ∧
    (¬ a ≤ s.regime.maxAddress → memWrite a v s = .error (.outOfBounds a))

/-! ## The instructions: each completes, and with what -/

/-- 41_io.md R81: READ with an answer in the word range stores it in `MEM[A]` and advances; the answer is consumed; at
`MAX_ADDRESS` it ends by PC exhaustion with `PC` kept (the spec's decision D5). -/
def Obligations.ReadStoresAcceptedInput : Prop :=
  ∀ (s : State) (a : Nat) (v : Int) (rest : List InputAnswer), inAddr s.regime a → s.mem.wf →
    s.io.input = .value v :: rest → s.regime.minWord ≤ v → v ≤ s.regime.maxWord →
    exec (.read a) s = .next
      (if s.pc + 1 ≤ s.regime.maxAddress then
        { s with mem := s.mem.write a v, pc := s.pc + 1, io := { s.io with request := none, input := rest } }
      else
        { s with mem := s.mem.write a v, lifecycle := .halted, haltCause := .pcExhausted,
                 io := { s.io with request := none, input := rest } }) ∧
    (s.mem.write a v).read a = v ∧ ∀ b, b ≠ a → (s.mem.write a v).read b = s.mem.read b

/-- 41_io.md R81, 60_exceptions.md R97 (READ's faults; in NARROW the range fault is the spec's decision D27): an aborted request and
an answer outside the word range fault, the answer is consumed, and memory, ACC and PC stay. -/
def Obligations.ReadFaultsOnBadInput : Prop :=
  ∀ (s : State) (a : Nat) (rest : List InputAnswer),
    (s.io.input = .aborted :: rest →
      exec (.read a) s = .next { s with
        lifecycle := .faulted, fault := some (faultRecord .inputAborted .nothing s),
        io := { s.io with request := none, input := rest } }) ∧
    (∀ v : Int, s.io.input = .value v :: rest → (v < s.regime.minWord ∨ s.regime.maxWord < v) →
      exec (.read a) s = .next { s with
        lifecycle := .faulted, fault := some (faultRecord .inputOutOfRange (.value v) s),
        io := { s.io with request := none, input := rest } })

/-- 41_io.md R82: WRITE gives `MEM[A]` to a host that takes output, and advances; at `MAX_ADDRESS` it ends by PC exhaustion with `PC`
kept (the spec's decision D5). -/
def Obligations.WriteGivesCellToHost : Prop :=
  ∀ (s : State) (a : Nat), inAddr s.regime a → s.io.outputReady = true →
    exec (.write a) s = .next
      (if s.pc + 1 ≤ s.regime.maxAddress then
        { s with pc := s.pc + 1, io := { s.io with request := none, output := s.io.output ++ [s.mem.read a] } }
      else
        { s with lifecycle := .halted, haltCause := .pcExhausted,
                 io := { s.io with request := none, output := s.io.output ++ [s.mem.read a] } })

/-- 42_load_store.md R83: LOAD copies `MEM[A]` to ACC and advances; at `MAX_ADDRESS` it ends by PC exhaustion with `PC` kept (the
spec's decision D5). -/
def Obligations.LoadCopiesCellToAccumulator : Prop :=
  ∀ (s : State) (a : Nat), inAddr s.regime a →
    exec (.load a) s = .next
      (if s.pc + 1 ≤ s.regime.maxAddress then { s with acc := s.mem.read a, pc := s.pc + 1 }
      else { s with acc := s.mem.read a, lifecycle := .halted, haltCause := .pcExhausted })

/-- 42_load_store.md R84: STORE copies ACC to `MEM[A]` and to no other cell, and advances; at `MAX_ADDRESS` it ends by PC exhaustion
with `PC` kept (the spec's decision D5). -/
def Obligations.StoreCopiesAccumulatorToCell : Prop :=
  ∀ (s : State) (a : Nat), inAddr s.regime a → s.mem.wf →
    exec (.store a) s = .next
      (if s.pc + 1 ≤ s.regime.maxAddress then { s with mem := s.mem.write a s.acc, pc := s.pc + 1 }
      else { s with mem := s.mem.write a s.acc, lifecycle := .halted, haltCause := .pcExhausted }) ∧
    (s.mem.write a s.acc).read a = s.acc ∧ ∀ b, b ≠ a → (s.mem.write a s.acc).read b = s.mem.read b

/-- 43_arithmetic.md R87: ADD commits the exact sum if it is a word, else faults with Overflow and keeps ACC and PC; at
`MAX_ADDRESS` a commit ends by PC exhaustion with `PC` kept (the spec's decision D5). -/
def Obligations.AddCommitsOrOverflows : Prop :=
  ∀ (s : State) (a : Nat), inAddr s.regime a →
    (s.regime.minWord ≤ s.acc + s.mem.read a → s.acc + s.mem.read a ≤ s.regime.maxWord →
      exec (.add a) s = .next
        (if s.pc + 1 ≤ s.regime.maxAddress then { s with acc := s.acc + s.mem.read a, pc := s.pc + 1 }
        else { s with acc := s.acc + s.mem.read a, lifecycle := .halted, haltCause := .pcExhausted })) ∧
    ((s.acc + s.mem.read a < s.regime.minWord ∨ s.regime.maxWord < s.acc + s.mem.read a) →
      exec (.add a) s = .next { s with
        lifecycle := .faulted, fault := some (faultRecord .overflow (.operation .add) s) })

/-- 43_arithmetic.md R88: SUBTRACT commits the exact difference, ACC minus memory, if it is a word, else faults with Overflow and keeps
ACC and PC; at `MAX_ADDRESS` a commit ends by PC exhaustion with `PC` kept (the spec's decision D5). -/
def Obligations.SubtractCommitsOrOverflows : Prop :=
  ∀ (s : State) (a : Nat), inAddr s.regime a →
    (s.regime.minWord ≤ s.acc - s.mem.read a → s.acc - s.mem.read a ≤ s.regime.maxWord →
      exec (.subtract a) s = .next
        (if s.pc + 1 ≤ s.regime.maxAddress then { s with acc := s.acc - s.mem.read a, pc := s.pc + 1 }
        else { s with acc := s.acc - s.mem.read a, lifecycle := .halted, haltCause := .pcExhausted })) ∧
    ((s.acc - s.mem.read a < s.regime.minWord ∨ s.regime.maxWord < s.acc - s.mem.read a) →
      exec (.subtract a) s = .next { s with
        lifecycle := .faulted, fault := some (faultRecord .overflow (.operation .subtract) s) })

/-- 43_arithmetic.md R90: MULTIPLY commits the exact product if it is a word, else faults with Overflow and keeps ACC and PC; at
`MAX_ADDRESS` a commit ends by PC exhaustion with `PC` kept (the spec's decision D5). -/
def Obligations.MultiplyCommitsOrOverflows : Prop :=
  ∀ (s : State) (a : Nat), inAddr s.regime a →
    (s.regime.minWord ≤ s.acc * s.mem.read a → s.acc * s.mem.read a ≤ s.regime.maxWord →
      exec (.multiply a) s = .next
        (if s.pc + 1 ≤ s.regime.maxAddress then { s with acc := s.acc * s.mem.read a, pc := s.pc + 1 }
        else { s with acc := s.acc * s.mem.read a, lifecycle := .halted, haltCause := .pcExhausted })) ∧
    ((s.acc * s.mem.read a < s.regime.minWord ∨ s.regime.maxWord < s.acc * s.mem.read a) →
      exec (.multiply a) s = .next { s with
        lifecycle := .faulted, fault := some (faultRecord .overflow (.operation .multiply) s) })

/-- 43_arithmetic.md R89: DIVIDE commits the quotient of ACC by memory rounded toward zero, for every non-zero divisor, and faults on a
zero one whatever ACC holds; at `MAX_ADDRESS` a commit ends by PC exhaustion with `PC` kept (the spec's decision D5). -/
def Obligations.DivideCommitsQuotientOrFaults : Prop :=
  ∀ (s : State) (a : Nat), inAddr s.regime a →
    (s.mem.read a ≠ 0 →
      exec (.divide a) s = .next
        (if s.pc + 1 ≤ s.regime.maxAddress then { s with acc := Int.tdiv s.acc (s.mem.read a), pc := s.pc + 1 }
        else { s with acc := Int.tdiv s.acc (s.mem.read a), lifecycle := .halted, haltCause := .pcExhausted })) ∧
    (s.mem.read a = 0 →
      exec (.divide a) s = .next { s with
        lifecycle := .faulted, fault := some (faultRecord .divisionByZero .nothing s) })

/-- 44_control.md R92: BRANCH writes `PC` and nothing else, at `MAX_ADDRESS` too and to every target; its words are those of opcode 40,
and an out-of-range target is rejected at decode. -/
def Obligations.BranchSetsProgramCounter : Prop :=
  (∀ (s : State) (a : Nat), exec (.branch a) s = .next { s with pc := a }) ∧
  (∀ (r : Regime) (a : Nat), a ≤ r.maxAddress → decode r ((40 * r.scale + a : Nat) : Int) = .ok (.branch a)) ∧
  (∀ (r : Regime) (a : Nat), r.maxAddress < a → a ≤ r.operandMax →
    decode r ((40 * r.scale + a : Nat) : Int) = .error (.invalidOperand a))

/-- 44_control.md R93, R94: BRANCHNEG jumps when ACC is negative and BRANCHZERO when it is zero; else they advance, and at
`MAX_ADDRESS` end by PC exhaustion with `PC` kept (the spec's decision D5). -/
def Obligations.ConditionalBranchesFollowAccumulator : Prop :=
  ∀ (s : State) (a : Nat),
    (s.acc < 0 → exec (.branchneg a) s = .next { s with pc := a }) ∧
    (¬ s.acc < 0 → exec (.branchneg a) s = .next
      (if s.pc + 1 ≤ s.regime.maxAddress then { s with pc := s.pc + 1 }
      else { s with lifecycle := .halted, haltCause := .pcExhausted })) ∧
    (s.acc = 0 → exec (.branchzero a) s = .next { s with pc := a }) ∧
    (s.acc ≠ 0 → exec (.branchzero a) s = .next
      (if s.pc + 1 ≤ s.regime.maxAddress then { s with pc := s.pc + 1 }
      else { s with lifecycle := .halted, haltCause := .pcExhausted }))

/-- 44_control.md R95: HALT stops normally at its own address, whatever its operand, and a later step changes nothing (the spec's
decision D6). -/
def Obligations.HaltStopsNormally : Prop :=
  ∀ (s : State) (a : Nat),
    exec (.halt a) s = .next { s with lifecycle := .halted, haltCause := .haltInstruction } ∧
    step { s with lifecycle := .halted, haltCause := .haltInstruction } =
      .next { s with lifecycle := .halted, haltCause := .haltInstruction }

/-- 40_execution_cycle.md R70: every sequential instruction that completes without a fault advances to `PC + 1`, or, at
`MAX_ADDRESS`, halts by PC exhaustion with `PC` kept (the spec's decision D5), the written ACC, cell or output standing. -/
def Obligations.SequentialAdvanceOrExhaustion : Prop :=
  ∀ (s t : State) (i : Instr), WellFormed s.regime i → s.lifecycle = .running → exec i s = .next t →
    t.lifecycle ≠ .faulted → t.io.request = none →
    (∃ a, i = .read a ∨ i = .write a ∨ i = .load a ∨ i = .store a ∨ i = .add a ∨ i = .subtract a ∨ i = .divide a ∨
      i = .multiply a ∨ (i = .branchneg a ∧ ¬ s.acc < 0) ∨ (i = .branchzero a ∧ s.acc ≠ 0)) →
    (s.pc < s.regime.maxAddress →
      t.pc = s.pc + 1 ∧ t.lifecycle = .running ∧ t.haltCause = s.haltCause) ∧
    (s.pc = s.regime.maxAddress →
      t.pc = s.pc ∧ t.lifecycle = .halted ∧ t.haltCause = .pcExhausted) ∧
    (∀ a, i = .load a → t.acc = s.mem.read a) ∧ (∀ a, i = .add a → t.acc = s.acc + s.mem.read a) ∧
    (∀ a, i = .subtract a → t.acc = s.acc - s.mem.read a) ∧ (∀ a, i = .multiply a → t.acc = s.acc * s.mem.read a) ∧
    (∀ a, i = .divide a → t.acc = Int.tdiv s.acc (s.mem.read a)) ∧
    (∀ a, i = .store a → t.mem = s.mem.write a s.acc) ∧
    (∀ a, i = .read a → ∃ v rest, s.io.input = .value v :: rest ∧ t.mem = s.mem.write a v) ∧
    (∀ a, i = .write a → t.io.output = s.io.output ++ [s.mem.read a])

/-! ## Arithmetic -/

/-- 43_arithmetic.md R85: the overflow signal is `not inWord` of the exact result of ADD, SUBTRACT and MULTIPLY, both ends inclusive;
with it the step faults with `Overflow{operation}` and ACC is kept, without it exactly that result is written. -/
def Obligations.OverflowDetection : Prop :=
  ∀ (s : State) (a : Nat) (op : ArithOp) (i : Instr) (c : Int), inAddr s.regime a →
    ((op = .add ∧ i = .add a ∧ c = s.acc + s.mem.read a) ∨ (op = .subtract ∧ i = .subtract a ∧ c = s.acc - s.mem.read a) ∨
      (op = .multiply ∧ i = .multiply a ∧ c = s.acc * s.mem.read a)) →
    (ovf s.regime c = true ↔ c < s.regime.minWord ∨ s.regime.maxWord < c) ∧
    ∃ t, exec i s = .next t ∧
      (ovf s.regime c = true → t.acc = s.acc ∧ t.lifecycle = .faulted ∧
        ∃ f, t.fault = some f ∧ f.kind = .overflow ∧ f.detail = .operation op) ∧
      (ovf s.regime c = false → t.acc = c ∧ t.fault = s.fault)

/-- 00_scope.md R13: division rounded toward zero, with the source's example. -/
def Obligations.TruncatingDivision : Prop :=
  (∀ a b : Int, b ≠ 0 →
    (tdiv a b).natAbs = a.natAbs / b.natAbs ∧
    (tdiv a b < 0 ↔ ((a < 0 ∧ 0 < b) ∨ (0 < a ∧ b < 0)) ∧ tdiv a b ≠ 0)) ∧
  tdiv (-10) 3 = -3

/-- 43_arithmetic.md R91 (which the spec marks as derived): a quotient of a word is a word, and DIVIDE never raises Overflow. -/
def Obligations.DivideNeverOverflows : Prop :=
  (∀ (r : Regime) (x m : Int), inWord r x → m ≠ 0 → (tdiv x m).natAbs ≤ x.natAbs ∧ inWord r (tdiv x m)) ∧
  (∀ (s t : State) (a : Nat), inAddr s.regime a → s.fault = none → exec (.divide a) s = .next t →
    ∀ f, t.fault = some f → f.kind ≠ .overflow)

/-- 43_arithmetic.md R86 (which the spec marks as derived): the table of widths; the exact result of two words lies in the range the
table gives, and a binary ALU of the table's width computes it (a quotient for a non-zero divisor, the only one DIVIDE computes). -/
def Obligations.AluWidthsSuffice : Prop :=
  (aluBits .wide .add = 22 ∧ aluBits .wide .subtract = 22 ∧ aluBits .wide .multiply = 41 ∧ aluBits .wide .divide = 21 ∧
    aluBits .narrow .add = 16 ∧ aluBits .narrow .subtract = 16 ∧ aluBits .narrow .multiply = 28 ∧
    aluBits .narrow .divide = 15) ∧
  ∀ (r : Regime) (op : AluOp) (x y : Int), inWord r x → inWord r y → (op = .divide → y ≠ 0) →
    (physicalResult r op x y).toInt = aluResult op x y ∧
    (op = .add ∨ op = .subtract → |aluResult op x y| ≤ 2 * r.maxWord) ∧
    (op = .multiply → |aluResult op x y| ≤ r.maxWord ^ 2) ∧
    (op = .divide → inWord r (aluResult op x y))

/-- 00_scope.md R10 (the spec's decision D2): the realisation's widths hold every word, every PC and every split field. -/
def Obligations.PhysicalWidthsSuffice : Prop :=
  ∀ (r : Regime),
    (∀ v : Int, inWord r v → (physicalWord r v).toInt = v) ∧
    (∀ a : Nat, inAddr r a → (physicalPc r a).toNat = a) ∧
    (∀ w : Int, 0 ≤ w → w ≤ r.maxWord →
      (physicalField r (splitOpcode r w)).toNat = splitOpcode r w ∧
      (physicalField r (splitOperand r w)).toNat = splitOperand r w)

/-! ## Frames -/

/-- The frame of the forms that write ACC only (LOAD, ADD, SUBTRACT, DIVIDE, MULTIPLY): every cell, the channel and the regime stay;
`PC`, STATE and HALT_CAUSE move as R70 says; FAULT changes only by a fault, which keeps ACC and PC. -/
def Obligations.AccumulatorFormsFrame : Prop :=
  ∀ (s t : State) (i : Instr),
    (∃ a, i = .load a ∨ i = .add a ∨ i = .subtract a ∨ i = .divide a ∨ i = .multiply a) → exec i s = .next t →
    t.regime = s.regime ∧ (∀ b, t.mem.read b = s.mem.read b) ∧ t.io = s.io ∧
    (t.fault = s.fault ∨ (t.lifecycle = .faulted ∧ t.acc = s.acc ∧ t.pc = s.pc ∧ t.haltCause = s.haltCause)) ∧
    (t.haltCause = s.haltCause ∨ (t.lifecycle = .halted ∧ t.haltCause = .pcExhausted ∧ t.pc = s.pc)) ∧
    (t.lifecycle = s.lifecycle ∨ t.lifecycle = .halted ∨ t.lifecycle = .faulted)

/-- The frame of the storing forms (READ, STORE): every cell but `A` stays, ACC and the regime stay; STORE leaves the channel alone,
READ takes at most the oldest answer from it and never gives output. -/
def Obligations.StoringFormsFrame : Prop :=
  ∀ (s t : State) (a : Nat) (i : Instr), s.mem.wf → (i = .read a ∨ i = .store a) → exec i s = .next t →
    t.regime = s.regime ∧ (∀ b, b ≠ a → t.mem.read b = s.mem.read b) ∧ t.acc = s.acc ∧
    (i = .store a → t.io = s.io ∧ t.fault = s.fault) ∧
    t.io.output = s.io.output ∧ t.io.outputReady = s.io.outputReady ∧
    (t.io.input = s.io.input ∨ ∃ x, s.io.input = x :: t.io.input) ∧
    (t.fault = s.fault ∨ (t.lifecycle = .faulted ∧ t.mem = s.mem ∧ t.pc = s.pc)) ∧
    (t.haltCause = s.haltCause ∨ (t.lifecycle = .halted ∧ t.haltCause = .pcExhausted ∧ t.pc = s.pc))

/-- The frame of the forms that write neither memory nor ACC (WRITE, BRANCH, BRANCHNEG, BRANCHZERO, HALT): every cell, ACC, FAULT and
the regime stay; only WRITE touches the channel, and it takes no answer. -/
def Obligations.ControlAndOutputFormsFrame : Prop :=
  ∀ (s t : State) (a : Nat) (i : Instr),
    (i = .write a ∨ i = .branch a ∨ i = .branchneg a ∨ i = .branchzero a ∨ i = .halt a) → exec i s = .next t →
    t.regime = s.regime ∧ (∀ b, t.mem.read b = s.mem.read b) ∧ t.acc = s.acc ∧ t.fault = s.fault ∧
    (i ≠ .write a → t.io = s.io) ∧ t.io.input = s.io.input ∧ t.io.outputReady = s.io.outputReady ∧
    (t.haltCause = s.haltCause ∨ t.lifecycle = .halted) ∧ (t.lifecycle = s.lifecycle ∨ t.lifecycle = .halted)

/-- 10_state.md R16 (which the spec marks as derived), 20_memory.md R43: a step that changes ACC runs LOAD or an arithmetic
instruction, and one that changes a cell runs READ or STORE with that cell as its operand. -/
def Obligations.OnlyTheseInstructionsWrite : Prop :=
  (∀ s t : State, step s = .next t → t.acc ≠ s.acc →
    ∃ a, decode s.regime (s.mem.read s.pc) = .ok (.load a) ∨ decode s.regime (s.mem.read s.pc) = .ok (.add a) ∨
      decode s.regime (s.mem.read s.pc) = .ok (.subtract a) ∨ decode s.regime (s.mem.read s.pc) = .ok (.divide a) ∨
      decode s.regime (s.mem.read s.pc) = .ok (.multiply a)) ∧
  (∀ (s t : State) (b : Nat), s.mem.wf → step s = .next t → t.mem.read b ≠ s.mem.read b →
    decode s.regime (s.mem.read s.pc) = .ok (.read b) ∨ decode s.regime (s.mem.read s.pc) = .ok (.store b))

/-- 10_state.md R16 (which the spec marks as derived): READ, WRITE, BRANCH and HALT do not read ACC, and what LOAD leaves does not depend
on what ACC held. -/
def Obligations.AccumulatorIsNotReadByOthers : Prop :=
  ∀ (s : State) (a : Nat) (x : Int) (i : Instr),
    ((i = .read a ∨ i = .write a ∨ i = .branch a ∨ i = .halt a) →
      ∀ t, exec i s = .next t → exec i { s with acc := x } = .next { t with acc := x }) ∧
    exec (.load a) { s with acc := x } = exec (.load a) s

/-- 10_state.md R33 (which the spec marks as derived): what an instruction leaves in ACC, memory and the channel does not depend on PC,
STATE, HALT_CAUSE or FAULT. -/
def Obligations.ProgramsDoNotSeePcOrStatus : Prop :=
  ∀ (s t : State) (i : Instr) (p : Nat) (l : Lifecycle) (c : HaltCause) (f : Option FaultRecord),
    exec i s = .next t →
    ∃ u, exec i { s with pc := p, lifecycle := l, haltCause := c, fault := f } = .next u ∧
      u.acc = t.acc ∧ u.mem = t.mem ∧ u.io = t.io

/-! ## Faults, halting and the lifecycle -/

/-- 60_exceptions.md R98, 10_state.md R27 (the record's fields are the spec's decision D9): fault entry writes STATE and FAULT and
nothing else, and the record holds the faulting address, the word and its fields. -/
def Obligations.FaultEntryRecord : Prop :=
  ∀ (s : State) (k : FaultKind) (d : FaultDetail),
    (∃ f, raiseFault k d s = { s with lifecycle := .faulted, fault := some f } ∧
      f.kind = k ∧ f.pc = s.pc ∧ f.detail = d ∧
      (¬ inAddr s.regime s.pc → f.word = none ∧ f.opcode = none ∧ f.operand = none) ∧
      (inAddr s.regime s.pc → f.word = some (s.mem.read s.pc)) ∧
      (inAddr s.regime s.pc → s.mem.read s.pc < 0 → f.opcode = none ∧ f.operand = none) ∧
      (inAddr s.regime s.pc → ¬ s.mem.read s.pc < 0 →
        f.opcode = some (splitOpcode s.regime (s.mem.read s.pc)) ∧
        f.operand = some (splitOperand s.regime (s.mem.read s.pc))))

/-- 60_exceptions.md R99 (which the spec marks as derived): a step that faults changes STATE and FAULT only, besides an input it has
already consumed. -/
def Obligations.FaultsArePrecise : Prop :=
  ∀ s t : State, step s = .next t → s.lifecycle ≠ .faulted → t.lifecycle = .faulted →
    t.regime = s.regime ∧ t.mem = s.mem ∧ t.acc = s.acc ∧ t.pc = s.pc ∧ t.haltCause = s.haltCause ∧
    t.io.output = s.io.output ∧ t.io.outputReady = s.io.outputReady ∧
    (t.io = s.io ∨ ∃ x, s.io.input = x :: t.io.input) ∧
    ∃ f, t.fault = some f ∧ f.pc = s.pc

/-- 60_exceptions.md R103: halting is not a fault: a step that reaches Halted leaves FAULT empty and returns `Ok(Halted(cause))`. -/
def Obligations.HaltingIsNotAFault : Prop :=
  ∀ s t : State, Inv s → step s = .next t → t.lifecycle = .halted →
    t.fault = none ∧ stepResult t = some (.halted t.haltCause) ∧
    (t.haltCause = .haltInstruction ∨ t.haltCause = .pcExhausted)

/-- 10_state.md R23, R26: the transitions a step can make: Ready and Running to Running, Halted or Faulted; to Halted only by HALT, with
HaltInstruction, or from `MAX_ADDRESS`, with PcExhausted; no step leaves Halted or Faulted, and none returns to Ready. -/
def Obligations.LifecycleTransitions : Prop :=
  ∀ s t : State, step s = .next t →
    (Steppable s → t.lifecycle ≠ .ready) ∧
    (¬ Steppable s → t = s) ∧
    (Steppable s → t.lifecycle = .halted →
      ((∃ a, decode s.regime (s.mem.read s.pc) = .ok (.halt a)) ∧ t.haltCause = .haltInstruction) ∨
      (s.pc = s.regime.maxAddress ∧ t.haltCause = .pcExhausted ∧ ∀ a, decode s.regime (s.mem.read s.pc) ≠ .ok (.halt a)))

/-- 10_state.md R24, 40_execution_cycle.md R77: Halted and Faulted are terminal: of all the host's calls only `reset` and a successful
`load` leave them, and they lead to Ready; at a step boundary the host can make both (the spec's decision D26). -/
def Obligations.OnlyResetOrLoadLeavesTerminalStates : Prop :=
  ∀ (s : State), (s.lifecycle = .halted ∨ s.lifecycle = .faulted) →
    (∀ (c : HostCall) (t : State), hostCall c s = .next t → t.lifecycle ≠ s.lifecycle →
      (c = .reset ∨ ∃ image, c = .load image ∧ loadCheck s.regime 1 image = none) ∧ t.lifecycle = .ready) ∧
    (resetCore s).lifecycle = .ready ∧
    (∀ image, loadCheck s.regime 1 image = none → (loadImage image s).2.lifecycle = .ready) ∧
    (s.io.request = none →
      hostCall .reset s = .next (resetCore s) ∧ (∀ image, hostCall (.load image) s = .next (loadImage image s).2) ∧
      hostCall .step s = .next s ∧ ∀ n, hostCall (.run n) s = .next s)

/-- 10_state.md R20, R21: `PC` after a step is `PC`, `PC + 1` within the space, or the operand of a branch; it never wraps. -/
def Obligations.ProgramCounterMoves : Prop :=
  ∀ s t : State, step s = .next t →
    t.pc = s.pc ∨ (t.pc = s.pc + 1 ∧ t.pc ≤ s.regime.maxAddress) ∨
    (∃ a, t.pc = a ∧ a ≤ s.regime.maxAddress ∧
      (decode s.regime (s.mem.read s.pc) = .ok (.branch a) ∨
       (decode s.regime (s.mem.read s.pc) = .ok (.branchneg a) ∧ s.acc < 0) ∨
       (decode s.regime (s.mem.read s.pc) = .ok (.branchzero a) ∧ s.acc = 0)))

/-! ## Invariants -/

/-- The reset state of either regime has the invariant. -/
def Obligations.InvariantHoldsAtReset : Prop := Inv State.reset ∧ ∀ r : Regime, Inv (State.resetOf r)

/-- 10_state.md R17, R19, R26, 20_memory.md R36: the invariant (ACC, PC and every cell in range, canonical memory, HALT_CAUSE and FAULT
as the execution state has them, a request only inside a step) is kept by every step. -/
def Obligations.StepKeepsInvariant : Prop := ∀ s t : State, Inv s → step s = .next t → Inv t

/-- 20_memory.md R36, 70_reset_and_hazards.md R113, R115: the host's calls and its moves on the channel keep the invariant too. -/
def Obligations.HostKeepsInvariant : Prop :=
  ∀ s : State, Inv s →
    (∀ (c : HostCall) (t : State), hostCall c s = .next t → Inv t) ∧
    (∀ x : InputAnswer, Inv (hostAnswer x s)) ∧ (∀ b : Bool, Inv (hostTakesOutput b s))

/-- 00_scope.md R7 (the spec's decision D1): no step and no call of the host changes the regime. -/
def Obligations.RegimeNeverChanges : Prop :=
  ∀ s t : State, (step s = .next t → t.regime = s.regime) ∧
    (∀ c : HostCall, hostCall c s = .next t → t.regime = s.regime)

/-- 20_memory.md R50 (which the spec marks as derived): the value that STORE or READ writes is what the next fetch of that cell decodes,
the instruction's own cell and the next one included. -/
def Obligations.WrittenCellIsWhatIsFetched : Prop :=
  ∀ (s t : State) (a : Nat), s.mem.wf → Steppable s → inAddr s.regime s.pc → step s = .next t →
    (decode s.regime (s.mem.read s.pc) = .ok (.store a) → fetchedWord { t with pc := a } = some s.acc) ∧
    (∀ v rest, decode s.regime (s.mem.read s.pc) = .ok (.read a) → s.io.input = .value v :: rest → inWord s.regime v →
      fetchedWord { t with pc := a } = some v)

/-! ## The I/O channel -/

/-- 41_io.md R79 (the spec's decision D13): a step takes at most one answer and gives at most one value: only READ takes the oldest
answer, only WRITE gives a value, and it is the cell `A`. -/
def Obligations.OneTransactionPerStep : Prop :=
  ∀ s t : State, step s = .next t →
    (t.io.input = s.io.input ∧ t.io.output = s.io.output) ∨
    ((∃ a, decode s.regime (s.mem.read s.pc) = .ok (.read a)) ∧ t.io.output = s.io.output ∧
      ∃ x, s.io.input = x :: t.io.input) ∨
    (t.io.input = s.io.input ∧ ∃ a, decode s.regime (s.mem.read s.pc) = .ok (.write a) ∧
      t.io.output = s.io.output ++ [s.mem.read a])

/-- 41_io.md R80 (the spec's decision D14; the waiting state is the model's choice, log 5): a READ with no answer, or a WRITE to a host
that takes no output, leaves the core stuck inside its step: Running, with the request in progress, no result, no way in for
the host's calls, and every other field as before; and a further step changes nothing. -/
def Obligations.UnansweredRequestIsStuck : Prop :=
  ∀ (s : State) (a : Nat), Steppable s → inAddr s.regime s.pc → ∀ q : IoRequest,
    ((decode s.regime (s.mem.read s.pc) = .ok (.read a) ∧ s.io.input = [] ∧ q = .input) ∨
     (decode s.regime (s.mem.read s.pc) = .ok (.write a) ∧ s.io.outputReady = false ∧ q = .output (s.mem.read a))) →
    ∃ t, step s = .next t ∧ t = { s with lifecycle := .running, io := { s.io with request := some q } } ∧
      Stuck t ∧ stepResult t = none ∧ ∀ c : HostCall, hostCall c t = .refused .hostInsideStep

/-- 41_io.md R79, R81, R82 (log 5): once the host answers, or takes output, the step in progress completes as if it had not waited:
its state after is the one READ or WRITE leaves when the answer, or a host that takes output, is there at once; at `MAX_ADDRESS`
that is PC exhaustion with `PC` kept (the spec's decision D5). -/
def Obligations.AnsweredRequestCompletes : Prop :=
  ∀ (s : State) (a : Nat), s.lifecycle = .running → inAddr s.regime s.pc →
    (decode s.regime (s.mem.read s.pc) = .ok (.read a) → s.io.input = [] → s.io.request = some .input →
      (∀ x : InputAnswer,
        step (hostAnswer x s) = step { s with io := { s.io with request := none, input := [x] } }) ∧
      ∀ v : Int, inWord s.regime v → s.mem.wf →
        step (hostAnswer (.value v) s) = .next
          (if s.pc + 1 ≤ s.regime.maxAddress then
            { s with mem := s.mem.write a v, pc := s.pc + 1, io := { s.io with request := none, input := [] } }
          else
            { s with mem := s.mem.write a v, lifecycle := .halted, haltCause := .pcExhausted,
                     io := { s.io with request := none, input := [] } }) ∧
        (s.mem.write a v).read a = v) ∧
    (decode s.regime (s.mem.read s.pc) = .ok (.write a) → s.io.request = some (.output (s.mem.read a)) →
      step (hostTakesOutput true s) = step { s with io := { s.io with request := none, outputReady := true } } ∧
      step (hostTakesOutput true s) = .next
        (if s.pc + 1 ≤ s.regime.maxAddress then
          { s with pc := s.pc + 1,
                   io := { s.io with request := none, outputReady := true, output := s.io.output ++ [s.mem.read a] } }
        else
          { s with lifecycle := .halted, haltCause := .pcExhausted,
                   io := { s.io with request := none, outputReady := true,
                                     output := s.io.output ++ [s.mem.read a] } }))

/-! ## Reset, load, run and the views -/

/-- 20_memory.md R39, 10_state.md R25, 70_reset_and_hazards.md R115: construction and `reset` set every cell to 0 and STATE to Ready;
a successful `load` (the spec's decision D23, log 12) leaves every cell past its image 0. -/
def Obligations.ResetZeroesMemory : Prop :=
  (∀ (r : Regime) (a : Nat), (State.resetOf r).mem.read a = 0 ∧ (State.resetOf r).lifecycle = .ready) ∧
  (∀ (s : State) (a : Nat), (resetCore s).mem.read a = 0 ∧ (resetCore s).lifecycle = .ready) ∧
  (∀ (s : State) (image : List Int) (a : Nat), loadCheck s.regime 1 image = none → image.length ≤ a →
    (loadImage image s).2.mem.read a = 0)

/-- 70_reset_and_hazards.md R113 (the values of ACC, PC, HALT_CAUSE and FAULT are the spec's decisions D3, D4, D9): `reset` puts every
piece of architectural state to its reset value, in every state; what a new core is differs from it in the channel only (log 15). -/
def Obligations.ResetState : Prop :=
  ∀ s : State, resetCore s =
    { regime := s.regime, mem := [], acc := 0, pc := 0, lifecycle := .ready, haltCause := .notHalted, fault := none,
      io := s.io } ∧
    State.resetOf s.regime = { resetCore s with io := .fresh }

/-- 70_reset_and_hazards.md R115 (the word interface is the spec's decision D23): `load` succeeds exactly on an image that fits and holds
words only, and then the core is reset with the image from address 0 and zeroes after it. -/
def Obligations.LoadWritesImage : Prop :=
  ∀ (s : State) (image : List Int),
    ((loadImage image s).1 = none ↔ image.length ≤ s.regime.memWords ∧ ∀ w ∈ image, inWord s.regime w) ∧
    ((loadImage image s).1 = none →
      (loadImage image s).2 = { resetCore s with mem := (loadImage image s).2.mem } ∧
      (∀ k, k < image.length → (loadImage image s).2.mem.read k = image.getD k 0) ∧
      (∀ k, image.length ≤ k → (loadImage image s).2.mem.read k = 0))

/-- 70_reset_and_hazards.md R115, R116 (the spec's decision D23): `load` fails at the first offending entry, counted from 1, capacity
before range, and a load that fails changes nothing. -/
def Obligations.FailedLoadChangesNothing : Prop :=
  ∀ (s : State) (image : List Int) (e : LoadError), (loadImage image s).1 = some e →
    (loadImage image s).2 = s ∧
    ∃ k, k < image.length ∧ (∀ j, j < k → j < s.regime.memWords ∧ inWord s.regime (image.getD j 0)) ∧
      ((s.regime.memWords ≤ k ∧ e = .capacityExceeded (k + 1)) ∨
       (k < s.regime.memWords ∧ ¬ inWord s.regime (image.getD k 0) ∧ e = .formatError (k + 1)))

/-- 40_execution_cycle.md R71, R74, R75 (the cap is the host's, D28): a step that leaves the core Running, with no request, has returned
`Ok(Running)`; a run takes a step, goes on from it when it returned that, and ends there when it returned another result; so a
run that has ended is the same under every larger cap, and in Halted and Faulted it ends at once with the state as it was. That
a step which waits for the host has returned nothing, and that `runFor` stops there too, is no end of run (41_io.md R80) but the
model's choice (log 5, log 17). -/
def Obligations.RunEndsOnce : Prop :=
  (∀ t : State, t.io.request = none → t.lifecycle = .running → stepResult t = some .running) ∧
  (∀ t : State, t.io.request ≠ none → stepResult t = none) ∧
  (∀ (n : Nat) (s t : State), step s = .next t →
    (stepResult t = some .running → runFor (n + 1) s = runFor n t) ∧
    (∀ r, stepResult t = some r → r ≠ .running → runFor (n + 1) s = .next t) ∧
    (stepResult t = none → runFor (n + 1) s = .next t)) ∧
  (∀ s : State, runFor 0 s = .next s) ∧
  (∀ (n m : Nat) (s t : State), n ≤ m → runFor n s = .next t → stepResult t ≠ some .running → stepResult t ≠ none →
    runFor m s = .next t) ∧
  (∀ (n : Nat) (s : State), ¬ Steppable s → runFor n s = .next s)

/-- 10_state.md R30, 60_exceptions.md R97 (the codes and the layout are the spec's decision D10): at a step boundary `STATUS` reads with
the state's code in bits 1:0, the halt cause's in 3:2, the fault kind's (0 for the empty record) in 7:4, and 0 in 15:8. -/
def Obligations.StatusViewFields : Prop :=
  ∀ s : State, s.io.request = none → ∃ v, status s = .ok v ∧
    (v.extractLsb 1 0).toNat =
      (match s.lifecycle with | .ready => 0 | .running => 1 | .halted => 2 | .faulted => 3) ∧
    (v.extractLsb 3 2).toNat =
      (match s.haltCause with | .notHalted => 0 | .haltInstruction => 1 | .pcExhausted => 2) ∧
    (v.extractLsb 7 4).toNat =
      (match s.fault.map FaultRecord.kind with
        | none => 0
        | some .programCounterOutOfBounds => 1
        | some .invalidInstruction => 2
        | some .invalidOpcode => 3
        | some .invalidOperand => 4
        | some .overflow => 5
        | some .divisionByZero => 6
        | some .inputOutOfRange => 7
        | some .inputAborted => 8) ∧
    (v.extractLsb 15 8).toNat = 0

/-! ## The host's text loader -/

/-- 70_reset_and_hazards.md R118: an accepted line's value is its sign applied to its digits, the range check after it never fails, and
the text form of a word loads back as that word (R118 says so of wide words; a line with no LF after it is log 16's reading, and
NARROW is the model's); then the rule's three examples. -/
def Obligations.AcceptedLineValue : Prop :=
  (∀ (r : Regime) (ds : List Char), isMagnitude r ds = true →
    readLine r ('+' :: ds) = .accepted (digitsValue ds) ∧ readLine r ('-' :: ds) = .accepted (-(digitsValue ds : Int)) ∧
    inWord r (digitsValue ds) ∧ inWord r (-(digitsValue ds : Int))) ∧
  (∀ (s : State) (w : Int), s.io.request = none → inWord s.regime w →
    ∃ t, loadText (formatWord s.regime w) s = .ok (none, t) ∧ t.mem.read 0 = w) ∧
  readLine .wide "+010002".toList = .accepted 10002 ∧ readLine .wide "-000045".toList = .accepted (-45) ∧
  readLine .wide "-000000".toList = .accepted 0

/-- 70_reset_and_hazards.md R119, 40_execution_cycle.md R77: at a step boundary the word list of a text that passes always loads, and a
text that fails leaves the core unchanged; inside a step the text loader is refused. -/
def Obligations.TextLoaderChecksEverything : Prop :=
  ∀ (s : State) (text : List Char),
    (s.io.request = none →
      (∀ ws, parseText s.regime text = .ok ws →
        (loadImage ws s).1 = none ∧ loadText text s = .ok (none, (loadImage ws s).2)) ∧
      (∀ e, parseText s.regime text = .error e → loadText text s = .ok (some e, s))) ∧
    (s.io.request ≠ none → loadText text s = .error .hostInsideStep)

/-! ## The host at a step boundary -/

/-- 10_state.md R30, R31, R32, 40_execution_cycle.md R77 (the fields of FAULT are the spec's decision D9; an operation's number in
FAULT_DETAIL is the model's, log 10): at a step boundary the host's calls do what they name, the accessors read ACC, PC and all of
MEM, and each FAULT view reads its field, or a zero value with valid bit 0 where there is none; inside a step all are refused. -/
def Obligations.HostActsAtStepBoundary : Prop :=
  ∀ s : State,
    (s.io.request = none →
      (hostCall .reset s = .next (resetCore s) ∧ (∀ image, hostCall (.load image) s = .next (loadImage image s).2) ∧
        hostCall .step s = step s ∧ (∀ n, hostCall (.run n) s = runFor n s) ∧
        ∀ image, hostLoad image s = .ok (loadImage image s)) ∧
      accumulator s = .ok s.acc ∧ programCounter s = .ok s.pc ∧
      (∃ cells, memorySnapshot s = .ok cells ∧ cells.length = s.regime.memWords ∧
        ∀ a, inAddr s.regime a → cells[a]? = some (s.mem.read a)) ∧
      (s.fault = none → ∀ view ∈ [faultPc, faultWord, faultOpcode, faultOperand, faultDetail],
        view s = .ok { valid := false, value := 0 }) ∧
      (∀ f, s.fault = some f →
        faultPc s = .ok { valid := true, value := f.pc } ∧
        (f.word = none → faultWord s = .ok { valid := false, value := 0 }) ∧
        (∀ w, f.word = some w → faultWord s = .ok { valid := true, value := w }) ∧
        (f.opcode = none → faultOpcode s = .ok { valid := false, value := 0 }) ∧
        (∀ n : Nat, f.opcode = some n → faultOpcode s = .ok { valid := true, value := n }) ∧
        (f.operand = none → faultOperand s = .ok { valid := false, value := 0 }) ∧
        (∀ n : Nat, f.operand = some n → faultOperand s = .ok { valid := true, value := n }) ∧
        (f.detail = .nothing → faultDetail s = .ok { valid := false, value := 0 }) ∧
        (∀ n : Nat, (f.detail = .opcode n ∨ f.detail = .operand n) → faultDetail s = .ok { valid := true, value := n }) ∧
        (∀ v, f.detail = .value v → faultDetail s = .ok { valid := true, value := v }) ∧
        (f.detail = .operation .add → faultDetail s = .ok { valid := true, value := 30 }) ∧
        (f.detail = .operation .subtract → faultDetail s = .ok { valid := true, value := 31 }) ∧
        (f.detail = .operation .multiply → faultDetail s = .ok { valid := true, value := 33 }))) ∧
    (s.io.request ≠ none →
      (∀ c : HostCall, hostCall c s = .refused .hostInsideStep) ∧
      (∀ image, hostLoad image s = .error .hostInsideStep) ∧
      accumulator s = .error .hostInsideStep ∧ programCounter s = .error .hostInsideStep ∧
      memorySnapshot s = .error .hostInsideStep ∧ status s = .error .hostInsideStep ∧
      ∀ view ∈ [faultPc, faultWord, faultOpcode, faultOperand, faultDetail], view s = .error .hostInsideStep)
end

