-- ==== Sys2Proof/Laws/Decode.lean ====
section
/-! SUPPORT. What the decoder and the encoder say: one lemma per function. -/

namespace Sys2Proof

theorem Regime.scale_pos (r : Regime) : 0 < r.scale := by cases r <;> decide

theorem Regime.maxAddress_lt_scale (r : Regime) : r.maxAddress < r.scale := by cases r <;> decide

theorem Regime.minWord_eq (r : Regime) : r.minWord = -r.maxWord := rfl

theorem inWord_zero (r : Regime) : inWord r 0 := by cases r <;> decide

theorem not_inWord_iff {r : Regime} {v : Int} : ¬ inWord r v ↔ v < r.minWord ∨ r.maxWord < v := by
  rw [inWord, not_and_or, not_le, not_le]

theorem splitOpcode_enc {r : Regime} {op a : Nat} (ha : a < r.scale) : splitOpcode r (enc r op a) = op := by
  simp only [splitOpcode, enc, Int.toNat_natCast]
  rw [mul_comm, Nat.mul_add_div r.scale_pos, Nat.div_eq_of_lt ha, Nat.add_zero]

theorem splitOperand_enc {r : Regime} {op a : Nat} (ha : a < r.scale) : splitOperand r (enc r op a) = a := by
  simp only [splitOperand, enc, Int.toNat_natCast]
  rw [mul_comm, Nat.mul_add_mod, Nat.mod_eq_of_lt ha]

theorem enc_nonneg (r : Regime) (op a : Nat) : ¬ enc r op a < 0 := not_lt.2 (Int.natCast_nonneg _)

theorem enc_split {r : Regime} {w : Int} (h : 0 ≤ w) : enc r (splitOpcode r w) (splitOperand r w) = w := by
  simp only [enc, splitOpcode, splitOperand]
  rw [mul_comm, Nat.div_add_mod, Int.toNat_of_nonneg h]

/-- The decoder on an encoded pair whose operand is an address: the operation of the opcode, or its rejection. -/
theorem decode_enc {r : Regime} {op a : Nat} (ha : inAddr r a) :
    decode r (enc r op a) = match ofOpcode op a with
      | some i => .ok i
      | none => .error (.invalidOpcode op) := by
  have hs : a < r.scale := lt_of_le_of_lt ha r.maxAddress_lt_scale
  cases h : ofOpcode op a <;> simp only [decode, if_neg (enc_nonneg r op a), splitOpcode_enc hs, splitOperand_enc hs, if_pos ha, h]

/-- What an opcode dispatches to has that opcode and that operand. -/
theorem ofOpcode_some {op a : Nat} {i : Instr} (h : ofOpcode op a = some i) : i.opcode = op ∧ i.operand = a := by
  unfold ofOpcode at h
  split at h <;> first | (cases h; exact ⟨rfl, rfl⟩) | cases h

/-- An opcode that is not one of the twelve dispatches to nothing (30_encoding.md R58). -/
theorem ofOpcode_eq_none {op : Nat} (h : op ∉ [10, 11, 20, 21, 30, 31, 32, 33, 40, 41, 42, 43]) (a : Nat) :
    ofOpcode op a = none := by
  unfold ofOpcode
  split <;> first | rfl | exact absurd (by decide) h

/-- Decoding succeeds only on a non-negative word, with an address as operand, of an assigned opcode. -/
theorem decode_ok {r : Regime} {w : Int} {i : Instr} (h : decode r w = .ok i) :
    0 ≤ w ∧ splitOpcode r w = i.opcode ∧ splitOperand r w = i.operand ∧ WellFormed r i := by
  unfold decode at h
  split at h
  · cases h
  · split at h
    · rename_i hw ha
      split at h
      · next hi =>
        cases h
        obtain ⟨h1, h2⟩ := ofOpcode_some hi
        exact ⟨not_lt.1 hw, h1.symm, h2.symm, by rw [WellFormed, h2]; exact ha⟩
      · cases h
    · cases h

end Sys2Proof
end

