-- ==== Sys2Proof/Laws/Memory.lean ====
section
/-! SUPPORT. The laws of the word memory: reads after writes, and the canonical form, which every operation keeps. -/

namespace Sys2Proof.Machine

theorem Memory.read_eq_unlisted_of_notMem {m : Memory} {a : Nat} (h : ∀ c ∈ m, c.1 ≠ a) : m.read a = Memory.unlisted := by
  induction m with
  | nil => rfl
  | cons c m ih =>
    have hc : a ≠ c.1 := fun e => h c (by simp) e.symm
    simp only [Memory.read, if_neg hc]
    exact ih fun d hd => h d (by simp [hd])

theorem Memory.mem_consCell {a : Nat} {v : Int} {m : Memory} {c : Nat × Int} (h : c ∈ Memory.consCell a v m) :
    c = (a, v) ∨ c ∈ m := by
  unfold Memory.consCell at h
  split at h
  · exact .inr h
  · simpa using h

/-- Every cell of a written memory is the written one or was there before. -/
theorem Memory.mem_write {m : Memory} {a : Nat} {v : Int} {c : Nat × Int} (h : c ∈ m.write a v) :
    c = (a, v) ∨ c ∈ m := by
  induction m with
  | nil => exact Memory.mem_consCell h
  | cons d m ih =>
    simp only [Memory.write] at h
    split at h
    · exact Memory.mem_consCell h
    · split at h
      · rcases Memory.mem_consCell h with h | h
        · exact .inl h
        · exact .inr (by simp [h])
      · rcases List.mem_cons.1 h with h | h
        · exact .inr (by simp [h])
        · rcases ih h with h | h
          · exact .inl h
          · exact .inr (by simp [h])

theorem Memory.wf_nil : Memory.wf [] := by simp [Memory.wf]

theorem Memory.wf_tail {c : Nat × Int} {m : Memory} (h : Memory.wf (c :: m)) : Memory.wf m :=
  ⟨(List.pairwise_cons.1 h.1).2, fun d hd => h.2 d (by simp [hd])⟩

theorem Memory.wf_head_lt {c : Nat × Int} {m : Memory} (h : Memory.wf (c :: m)) : ∀ d ∈ m, c.1 < d.1 :=
  (List.pairwise_cons.1 h.1).1

theorem Memory.wf_consCell {a : Nat} {v : Int} {m : Memory} (h : m.wf) (hlt : ∀ d ∈ m, a < d.1) :
    (Memory.consCell a v m).wf := by
  unfold Memory.consCell
  split
  · exact h
  · refine ⟨List.pairwise_cons.2 ⟨hlt, h.1⟩, fun c hc => ?_⟩
    rcases List.mem_cons.1 hc with rfl | hc
    · assumption
    · exact h.2 c hc

/-- Writing keeps the canonical form. -/
theorem Memory.wf_write {m : Memory} (h : m.wf) (a : Nat) (v : Int) : (m.write a v).wf := by
  induction m with
  | nil => exact Memory.wf_consCell h (by simp)
  | cons c m ih =>
    have hlt := Memory.wf_head_lt h
    simp only [Memory.write]
    split
    · next hac =>
      refine Memory.wf_consCell h fun d hd => ?_
      rcases List.mem_cons.1 hd with rfl | hd
      · exact hac
      · exact lt_trans hac (hlt d hd)
    · split
      · next hac => exact Memory.wf_consCell (Memory.wf_tail h) fun d hd => hac ▸ hlt d hd
      · next h1 h2 =>
        have ht := ih (Memory.wf_tail h)
        refine ⟨List.pairwise_cons.2 ⟨fun d hd => ?_, ht.1⟩, fun d hd => ?_⟩
        · rcases Memory.mem_write hd with rfl | hd
          · simp only; omega
          · exact hlt d hd
        · rcases List.mem_cons.1 hd with rfl | hd
          · exact h.2 _ (by simp)
          · exact ht.2 d hd

theorem Memory.wf_writeFrom {m : Memory} (h : m.wf) (a : Nat) (ws : List Int) : (m.writeFrom a ws).wf := by
  induction ws generalizing m a with
  | nil => exact h
  | cons w ws ih => exact ih (Memory.wf_write h a w) (a + 1)

theorem Memory.read_consCell {a b : Nat} {v : Int} {m : Memory} (hlt : ∀ d ∈ m, a < d.1) :
    (Memory.consCell a v m).read b = if b = a then v else m.read b := by
  unfold Memory.consCell
  split
  · next hv =>
    split
    · next hb =>
      subst hb hv
      exact Memory.read_eq_unlisted_of_notMem fun d hd => (hlt d hd).ne'
    · rfl
  · rfl

/-- Reading after a write: the written cell gives the written value, every other cell is as before. -/
theorem Memory.read_write {m : Memory} (h : m.wf) (a b : Nat) (v : Int) :
    (m.write a v).read b = if b = a then v else m.read b := by
  induction m with
  | nil => exact Memory.read_consCell (by simp)
  | cons c m ih =>
    have hlt := Memory.wf_head_lt h
    simp only [Memory.write]
    split
    · next hac =>
      refine Memory.read_consCell fun d hd => ?_
      rcases List.mem_cons.1 hd with rfl | hd
      · exact hac
      · exact lt_trans hac (hlt d hd)
    · split
      · next hac =>
        rw [Memory.read_consCell fun d hd => hac ▸ hlt d hd]
        by_cases hb : b = a
        · simp [hb]
        · simp [hb, Memory.read, ← hac]
      · next h1 h2 =>
        simp only [Memory.read]
        rw [ih (Memory.wf_tail h)]
        by_cases hb : b = a <;> by_cases hc : b = c.1 <;> simp_all

@[simp] theorem Memory.read_nil (a : Nat) : Memory.read [] a = 0 := rfl

/-- The cells written by `writeFrom`: those of the row of words, and no other. -/
theorem Memory.read_writeFrom {m : Memory} (h : m.wf) (a b : Nat) (ws : List Int) :
    (m.writeFrom a ws).read b = if a ≤ b ∧ b < a + ws.length then ws.getD (b - a) 0 else m.read b := by
  induction ws generalizing m a with
  | nil =>
    have : ¬ (a ≤ b ∧ b < a + ([] : List Int).length) := by simp
    rw [if_neg this]; rfl
  | cons w ws ih =>
    rw [Memory.writeFrom, ih (Memory.wf_write h a w), Memory.read_write h]
    by_cases hb : b = a
    · subst hb
      simp
    · by_cases hr : a ≤ b ∧ b < a + (w :: ws).length
      · have hr' : a + 1 ≤ b ∧ b < a + 1 + ws.length := by simp at hr; omega
        rw [if_pos hr', if_pos hr]
        obtain ⟨k, rfl⟩ : ∃ k, b = a + 1 + k := ⟨b - (a + 1), by omega⟩
        have e1 : a + 1 + k - (a + 1) = k := by omega
        have e2 : a + 1 + k - a = k + 1 := by omega
        rw [e1, e2, List.getD_cons_succ]
      · have hr' : ¬ (a + 1 ≤ b ∧ b < a + 1 + ws.length) := by simp at hr; omega
        rw [if_neg hr', if_neg hr, if_neg hb]

/-- A listed cell of a canonical memory reads as listed. -/
theorem Memory.read_of_mem {m : Memory} (h : m.wf) {c : Nat × Int} (hc : c ∈ m) : m.read c.1 = c.2 := by
  induction m with
  | nil => simp at hc
  | cons d m ih =>
    rcases List.mem_cons.1 hc with rfl | hc
    · simp [Memory.read]
    · have := Memory.wf_head_lt h c hc
      simp only [Memory.read]
      rw [if_neg (by omega), ih (Memory.wf_tail h) hc]

/-- What a canonical memory reads at an address is 0 or one of its cells. -/
theorem Memory.read_cases (m : Memory) (a : Nat) : m.read a = 0 ∨ (a, m.read a) ∈ m := by
  induction m with
  | nil => exact .inl rfl
  | cons c m ih =>
    simp only [Memory.read]
    split
    · next h => exact .inr (by simp [h])
    · rcases ih with h | h
      · exact .inl h
      · exact .inr (by simp [h])

end Sys2Proof.Machine
end

