-- ==== Sys2Proof/Laws/State.lean ====
section
/-! SUPPORT. What each update of the state does to each field: one lemma per field per update. -/

namespace Sys2Proof.Machine

@[simp] theorem State.setAcc_regime (s : State) (v : Int) : (s.setAcc v).regime = s.regime := rfl
@[simp] theorem State.setAcc_mem (s : State) (v : Int) : (s.setAcc v).mem = s.mem := rfl
@[simp] theorem State.setAcc_acc (s : State) (v : Int) : (s.setAcc v).acc = v := rfl
@[simp] theorem State.setAcc_pc (s : State) (v : Int) : (s.setAcc v).pc = s.pc := rfl
@[simp] theorem State.setAcc_lifecycle (s : State) (v : Int) : (s.setAcc v).lifecycle = s.lifecycle := rfl
@[simp] theorem State.setAcc_haltCause (s : State) (v : Int) : (s.setAcc v).haltCause = s.haltCause := rfl
@[simp] theorem State.setAcc_fault (s : State) (v : Int) : (s.setAcc v).fault = s.fault := rfl
@[simp] theorem State.setAcc_io (s : State) (v : Int) : (s.setAcc v).io = s.io := rfl

@[simp] theorem State.setPc_regime (s : State) (a : Nat) : (s.setPc a).regime = s.regime := rfl
@[simp] theorem State.setPc_mem (s : State) (a : Nat) : (s.setPc a).mem = s.mem := rfl
@[simp] theorem State.setPc_acc (s : State) (a : Nat) : (s.setPc a).acc = s.acc := rfl
@[simp] theorem State.setPc_pc (s : State) (a : Nat) : (s.setPc a).pc = a := rfl
@[simp] theorem State.setPc_lifecycle (s : State) (a : Nat) : (s.setPc a).lifecycle = s.lifecycle := rfl
@[simp] theorem State.setPc_haltCause (s : State) (a : Nat) : (s.setPc a).haltCause = s.haltCause := rfl
@[simp] theorem State.setPc_fault (s : State) (a : Nat) : (s.setPc a).fault = s.fault := rfl
@[simp] theorem State.setPc_io (s : State) (a : Nat) : (s.setPc a).io = s.io := rfl

@[simp] theorem State.setMem_regime (s : State) (m : Memory) : (s.setMem m).regime = s.regime := rfl
@[simp] theorem State.setMem_mem (s : State) (m : Memory) : (s.setMem m).mem = m := rfl
@[simp] theorem State.setMem_acc (s : State) (m : Memory) : (s.setMem m).acc = s.acc := rfl
@[simp] theorem State.setMem_pc (s : State) (m : Memory) : (s.setMem m).pc = s.pc := rfl
@[simp] theorem State.setMem_lifecycle (s : State) (m : Memory) : (s.setMem m).lifecycle = s.lifecycle := rfl
@[simp] theorem State.setMem_haltCause (s : State) (m : Memory) : (s.setMem m).haltCause = s.haltCause := rfl
@[simp] theorem State.setMem_fault (s : State) (m : Memory) : (s.setMem m).fault = s.fault := rfl
@[simp] theorem State.setMem_io (s : State) (m : Memory) : (s.setMem m).io = s.io := rfl

@[simp] theorem State.setLifecycle_regime (s : State) (l : Lifecycle) : (s.setLifecycle l).regime = s.regime := rfl
@[simp] theorem State.setLifecycle_mem (s : State) (l : Lifecycle) : (s.setLifecycle l).mem = s.mem := rfl
@[simp] theorem State.setLifecycle_acc (s : State) (l : Lifecycle) : (s.setLifecycle l).acc = s.acc := rfl
@[simp] theorem State.setLifecycle_pc (s : State) (l : Lifecycle) : (s.setLifecycle l).pc = s.pc := rfl
@[simp] theorem State.setLifecycle_lifecycle (s : State) (l : Lifecycle) : (s.setLifecycle l).lifecycle = l := rfl
@[simp] theorem State.setLifecycle_haltCause (s : State) (l : Lifecycle) : (s.setLifecycle l).haltCause = s.haltCause := rfl
@[simp] theorem State.setLifecycle_fault (s : State) (l : Lifecycle) : (s.setLifecycle l).fault = s.fault := rfl
@[simp] theorem State.setLifecycle_io (s : State) (l : Lifecycle) : (s.setLifecycle l).io = s.io := rfl

@[simp] theorem State.setIo_regime (s : State) (c : IoChannel) : (s.setIo c).regime = s.regime := rfl
@[simp] theorem State.setIo_mem (s : State) (c : IoChannel) : (s.setIo c).mem = s.mem := rfl
@[simp] theorem State.setIo_acc (s : State) (c : IoChannel) : (s.setIo c).acc = s.acc := rfl
@[simp] theorem State.setIo_pc (s : State) (c : IoChannel) : (s.setIo c).pc = s.pc := rfl
@[simp] theorem State.setIo_lifecycle (s : State) (c : IoChannel) : (s.setIo c).lifecycle = s.lifecycle := rfl
@[simp] theorem State.setIo_haltCause (s : State) (c : IoChannel) : (s.setIo c).haltCause = s.haltCause := rfl
@[simp] theorem State.setIo_fault (s : State) (c : IoChannel) : (s.setIo c).fault = s.fault := rfl
@[simp] theorem State.setIo_io (s : State) (c : IoChannel) : (s.setIo c).io = c := rfl

@[simp] theorem haltWith_regime (c : HaltCause) (s : State) : (haltWith c s).regime = s.regime := rfl
@[simp] theorem haltWith_mem (c : HaltCause) (s : State) : (haltWith c s).mem = s.mem := rfl
@[simp] theorem haltWith_acc (c : HaltCause) (s : State) : (haltWith c s).acc = s.acc := rfl
@[simp] theorem haltWith_pc (c : HaltCause) (s : State) : (haltWith c s).pc = s.pc := rfl
@[simp] theorem haltWith_lifecycle (c : HaltCause) (s : State) : (haltWith c s).lifecycle = .halted := rfl
@[simp] theorem haltWith_haltCause (c : HaltCause) (s : State) : (haltWith c s).haltCause = c := rfl
@[simp] theorem haltWith_fault (c : HaltCause) (s : State) : (haltWith c s).fault = s.fault := rfl
@[simp] theorem haltWith_io (c : HaltCause) (s : State) : (haltWith c s).io = s.io := rfl

@[simp] theorem raiseFault_regime (k : FaultKind) (d : FaultDetail) (s : State) : (raiseFault k d s).regime = s.regime := rfl
@[simp] theorem raiseFault_mem (k : FaultKind) (d : FaultDetail) (s : State) : (raiseFault k d s).mem = s.mem := rfl
@[simp] theorem raiseFault_acc (k : FaultKind) (d : FaultDetail) (s : State) : (raiseFault k d s).acc = s.acc := rfl
@[simp] theorem raiseFault_pc (k : FaultKind) (d : FaultDetail) (s : State) : (raiseFault k d s).pc = s.pc := rfl
@[simp] theorem raiseFault_lifecycle (k : FaultKind) (d : FaultDetail) (s : State) : (raiseFault k d s).lifecycle = .faulted := rfl
@[simp] theorem raiseFault_haltCause (k : FaultKind) (d : FaultDetail) (s : State) : (raiseFault k d s).haltCause = s.haltCause := rfl
@[simp] theorem raiseFault_fault (k : FaultKind) (d : FaultDetail) (s : State) : (raiseFault k d s).fault = some (faultRecord k d s) := rfl
@[simp] theorem raiseFault_io (k : FaultKind) (d : FaultDetail) (s : State) : (raiseFault k d s).io = s.io := rfl

@[simp] theorem consumeInput_regime (rest : List InputAnswer) (s : State) : (consumeInput rest s).regime = s.regime := rfl
@[simp] theorem consumeInput_mem (rest : List InputAnswer) (s : State) : (consumeInput rest s).mem = s.mem := rfl
@[simp] theorem consumeInput_acc (rest : List InputAnswer) (s : State) : (consumeInput rest s).acc = s.acc := rfl
@[simp] theorem consumeInput_pc (rest : List InputAnswer) (s : State) : (consumeInput rest s).pc = s.pc := rfl
@[simp] theorem consumeInput_lifecycle (rest : List InputAnswer) (s : State) : (consumeInput rest s).lifecycle = s.lifecycle := rfl
@[simp] theorem consumeInput_haltCause (rest : List InputAnswer) (s : State) : (consumeInput rest s).haltCause = s.haltCause := rfl
@[simp] theorem consumeInput_fault (rest : List InputAnswer) (s : State) : (consumeInput rest s).fault = s.fault := rfl
@[simp] theorem consumeInput_io (rest : List InputAnswer) (s : State) : (consumeInput rest s).io = { s.io with request := none, input := rest } := rfl

@[simp] theorem giveOutput_regime (v : Int) (s : State) : (giveOutput v s).regime = s.regime := rfl
@[simp] theorem giveOutput_mem (v : Int) (s : State) : (giveOutput v s).mem = s.mem := rfl
@[simp] theorem giveOutput_acc (v : Int) (s : State) : (giveOutput v s).acc = s.acc := rfl
@[simp] theorem giveOutput_pc (v : Int) (s : State) : (giveOutput v s).pc = s.pc := rfl
@[simp] theorem giveOutput_lifecycle (v : Int) (s : State) : (giveOutput v s).lifecycle = s.lifecycle := rfl
@[simp] theorem giveOutput_haltCause (v : Int) (s : State) : (giveOutput v s).haltCause = s.haltCause := rfl
@[simp] theorem giveOutput_fault (v : Int) (s : State) : (giveOutput v s).fault = s.fault := rfl
@[simp] theorem giveOutput_io (v : Int) (s : State) : (giveOutput v s).io = { s.io with request := none, output := s.io.output ++ [v] } := rfl

@[simp] theorem await_regime (q : IoRequest) (s : State) : (await q s).regime = s.regime := rfl
@[simp] theorem await_mem (q : IoRequest) (s : State) : (await q s).mem = s.mem := rfl
@[simp] theorem await_acc (q : IoRequest) (s : State) : (await q s).acc = s.acc := rfl
@[simp] theorem await_pc (q : IoRequest) (s : State) : (await q s).pc = s.pc := rfl
@[simp] theorem await_lifecycle (q : IoRequest) (s : State) : (await q s).lifecycle = s.lifecycle := rfl
@[simp] theorem await_haltCause (q : IoRequest) (s : State) : (await q s).haltCause = s.haltCause := rfl
@[simp] theorem await_fault (q : IoRequest) (s : State) : (await q s).fault = s.fault := rfl
@[simp] theorem await_io (q : IoRequest) (s : State) : (await q s).io = { s.io with request := some q } := rfl

@[simp] theorem nextSeq_regime (s : State) : (nextSeq s).regime = s.regime := by unfold nextSeq; split <;> rfl
@[simp] theorem nextSeq_mem (s : State) : (nextSeq s).mem = s.mem := by unfold nextSeq; split <;> rfl
@[simp] theorem nextSeq_acc (s : State) : (nextSeq s).acc = s.acc := by unfold nextSeq; split <;> rfl
@[simp] theorem nextSeq_fault (s : State) : (nextSeq s).fault = s.fault := by unfold nextSeq; split <;> rfl
@[simp] theorem nextSeq_io (s : State) : (nextSeq s).io = s.io := by unfold nextSeq; split <;> rfl

theorem nextSeq_of_le {s : State} (h : s.pc + 1 ≤ s.regime.maxAddress) : nextSeq s = s.setPc (s.pc + 1) := if_pos h

theorem nextSeq_of_not_le {s : State} (h : ¬ s.pc + 1 ≤ s.regime.maxAddress) :
    nextSeq s = haltWith .pcExhausted s := if_neg h

/-- What a sequential advance can be. -/
theorem nextSeq_cases (s : State) :
    (s.pc + 1 ≤ s.regime.maxAddress ∧ nextSeq s = s.setPc (s.pc + 1)) ∨
    (s.regime.maxAddress < s.pc + 1 ∧ nextSeq s = haltWith .pcExhausted s) := by
  by_cases h : s.pc + 1 ≤ s.regime.maxAddress
  · exact .inl ⟨h, nextSeq_of_le h⟩
  · exact .inr ⟨by omega, nextSeq_of_not_le h⟩

/-- A sequential advance enters no execution state but Halted. -/
theorem nextSeq_lifecycle_ne {s : State} {l : Lifecycle} (h : s.lifecycle ≠ l) (hl : l ≠ .halted) :
    (nextSeq s).lifecycle ≠ l := by
  rcases nextSeq_cases s with ⟨_, e⟩ | ⟨_, e⟩ <;> rw [e]
  · exact h
  · exact hl.symm

@[simp] theorem resetCore_regime (s : State) : (resetCore s).regime = s.regime := rfl
@[simp] theorem resetCore_mem (s : State) : (resetCore s).mem = [] := rfl
@[simp] theorem resetCore_acc (s : State) : (resetCore s).acc = 0 := rfl
@[simp] theorem resetCore_pc (s : State) : (resetCore s).pc = 0 := rfl
@[simp] theorem resetCore_lifecycle (s : State) : (resetCore s).lifecycle = .ready := rfl
@[simp] theorem resetCore_haltCause (s : State) : (resetCore s).haltCause = .notHalted := rfl
@[simp] theorem resetCore_fault (s : State) : (resetCore s).fault = none := rfl
@[simp] theorem resetCore_io (s : State) : (resetCore s).io = s.io := rfl

end Sys2Proof.Machine
end

