-- ==== Sys2Proof/Laws/Ops.lean ====
section
/-! SUPPORT. What each shared operation can do: the lemma that later proofs cite. -/

namespace Sys2Proof.Machine

@[simp] theorem andThen_ok {α : Type} (v : α) (k : α → Host.Outcome State Fault Refusal) : andThen (.ok v) k = k v := rfl

@[simp] theorem andThen_error {α : Type} (f : Fault) (k : α → Host.Outcome State Fault Refusal) :
    andThen (.error f) k = .fault f := rfl

theorem memRead_of_inAddr {a : Nat} {s : State} (h : inAddr s.regime a) : memRead a s = .ok (s.mem.read a) := if_pos h

theorem memRead_of_not_inAddr {a : Nat} {s : State} (h : ¬ inAddr s.regime a) : memRead a s = .error (.outOfBounds a) :=
  if_neg h

theorem memWrite_of_inAddr {a : Nat} {v : Int} {s : State} (h : inAddr s.regime a) :
    memWrite a v s = .ok (s.setMem (s.mem.write a v)) := if_pos h

theorem memWrite_of_not_inAddr {a : Nat} {v : Int} {s : State} (h : ¬ inAddr s.regime a) :
    memWrite a v s = .error (.outOfBounds a) := if_neg h

theorem readOperand_of_inAddr {a : Nat} {s : State} (h : inAddr s.regime a) (k : Int → Host.Outcome State Fault Refusal) :
    readOperand a s k = k (s.mem.read a) := by
  rw [readOperand, memRead_of_inAddr h, andThen_ok]

theorem readOperand_of_not_inAddr {a : Nat} {s : State} (h : ¬ inAddr s.regime a)
    (k : Int → Host.Outcome State Fault Refusal) : readOperand a s k = .fault (.outOfBounds a) := by
  rw [readOperand, memRead_of_not_inAddr h, andThen_error]

theorem ovf_eq_false_iff {r : Regime} {c : Int} : ovf r c = false ↔ inWord r c := by simp [ovf]

theorem commitChecked_of_inWord {op : ArithOp} {c : Int} {s : State} (h : inWord s.regime c) :
    commitChecked op c s = nextSeq (s.setAcc c) := by
  simp [commitChecked, ovf_eq_false_iff.2 h]

theorem commitChecked_of_not_inWord {op : ArithOp} {c : Int} {s : State} (h : ¬ inWord s.regime c) :
    commitChecked op c s = raiseFault .overflow (.operation op) s := by
  simp [commitChecked, ovf, h]

/-- The quotient of 00_scope.md R13 is the library's division rounded toward zero. -/
theorem tdiv_eq (a b : Int) (hb : b ≠ 0) : tdiv a b = Int.tdiv a b := by
  unfold tdiv
  rcases Int.natAbs_eq a with ha | ha <;> rcases Int.natAbs_eq b with hb' | hb' <;>
    generalize a.natAbs = m at ha ⊢ <;> generalize b.natAbs = n at hb' ⊢ <;> subst ha hb'
  · have h1 : ¬ ((m : Int) < 0) := by omega
    have h2 : ¬ ((n : Int) < 0) := by omega
    simp [h1, h2]
  · have : 0 < n := by omega
    simp [this]
  · rcases Nat.eq_zero_or_pos m with rfl | hm
    · simp
    · simp [hm]
  · have : 0 < n := by omega
    rcases Nat.eq_zero_or_pos m with rfl | hm
    · simp
    · simp [hm, this]

/-- A quotient's magnitude never exceeds its dividend's (43_arithmetic.md R91). -/
theorem tdiv_natAbs (a b : Int) : (tdiv a b).natAbs = a.natAbs / b.natAbs := by
  unfold tdiv
  split
  · rfl
  · exact Int.natAbs_neg _

theorem fetchedWord_of_inAddr {s : State} (h : inAddr s.regime s.pc) : fetchedWord s = some (s.mem.read s.pc) := if_pos h

theorem cycle_of_inAddr {s : State} (h : inAddr s.regime s.pc) :
    cycle s = match decode s.regime (s.mem.read s.pc) with
      | .ok i => exec i s
      | .error e => .next (decodeFault e s) := by
  cases hd : decode s.regime (s.mem.read s.pc) <;> simp only [cycle, if_pos h, memRead_of_inAddr h, andThen_ok, hd]

/-- A decode fault is a fault entry. -/
theorem decodeFault_eq (e : DecodeError) (s : State) : ∃ k d, decodeFault e s = raiseFault k d s := by
  cases e <;> exact ⟨_, _, rfl⟩

end Sys2Proof.Machine
end

