-- ==== Sys2Proof/Laws/Exec.lean ====
section
/-! SUPPORT. One equation per instruction on an operand that is an address, and what an instruction can do at all. -/

namespace Sys2Proof.Machine

section
variable {a : Nat} {s : State}

theorem exec_read_nil (h : s.io.input = []) : exec (.read a) s = .next (await .input s) := by
  simp only [exec, execRead, h]

theorem exec_read_aborted {rest : List InputAnswer} (h : s.io.input = .aborted :: rest) :
    exec (.read a) s = .next (raiseFault .inputAborted .nothing (consumeInput rest s)) := by
  simp only [exec, execRead, h]

theorem exec_read_outOfRange {v : Int} {rest : List InputAnswer} (h : s.io.input = .value v :: rest)
    (hv : ¬ inWord s.regime v) :
    exec (.read a) s = .next (raiseFault .inputOutOfRange (.value v) (consumeInput rest s)) := by
  simp only [exec, execRead, h, if_neg hv]

theorem exec_read_value (ha : inAddr s.regime a) {v : Int} {rest : List InputAnswer} (h : s.io.input = .value v :: rest)
    (hv : inWord s.regime v) :
    exec (.read a) s = .next (nextSeq ((consumeInput rest s).setMem (s.mem.write a v))) := by
  simp only [exec, execRead, h, if_pos hv]
  rw [memWrite_of_inAddr (by simpa using ha), andThen_ok]
  rfl

theorem exec_write_ready (ha : inAddr s.regime a) (h : s.io.outputReady = true) :
    exec (.write a) s = .next (nextSeq (giveOutput (s.mem.read a) s)) := by
  simp only [exec, execWrite, readOperand_of_inAddr ha, h, if_true]

theorem exec_write_notReady (ha : inAddr s.regime a) (h : s.io.outputReady = false) :
    exec (.write a) s = .next (await (.output (s.mem.read a)) s) := by
  simp [exec, execWrite, readOperand_of_inAddr ha, h]

theorem exec_load (ha : inAddr s.regime a) : exec (.load a) s = .next (nextSeq (s.setAcc (s.mem.read a))) := by
  simp only [exec, execLoad, readOperand_of_inAddr ha]

theorem exec_store (ha : inAddr s.regime a) : exec (.store a) s = .next (nextSeq (s.setMem (s.mem.write a s.acc))) := by
  simp only [exec, execStore, memWrite_of_inAddr ha, andThen_ok]

theorem exec_add (ha : inAddr s.regime a) : exec (.add a) s = .next (commitChecked .add (s.acc + s.mem.read a) s) := by
  simp only [exec, execAdd, readOperand_of_inAddr ha, aluResult]

theorem exec_subtract (ha : inAddr s.regime a) :
    exec (.subtract a) s = .next (commitChecked .subtract (s.acc - s.mem.read a) s) := by
  simp only [exec, execSubtract, readOperand_of_inAddr ha, aluResult]

theorem exec_multiply (ha : inAddr s.regime a) :
    exec (.multiply a) s = .next (commitChecked .multiply (s.acc * s.mem.read a) s) := by
  simp only [exec, execMultiply, readOperand_of_inAddr ha, aluResult]

theorem exec_divide_zero (ha : inAddr s.regime a) (h : s.mem.read a = 0) :
    exec (.divide a) s = .next (raiseFault .divisionByZero .nothing s) := by
  simp only [exec, execDivide, readOperand_of_inAddr ha, h, if_true]

theorem exec_divide_nonzero (ha : inAddr s.regime a) (h : s.mem.read a ≠ 0) :
    exec (.divide a) s = .next (nextSeq (s.setAcc (tdiv s.acc (s.mem.read a)))) := by
  simp only [exec, execDivide, readOperand_of_inAddr ha, if_neg h, aluResult]

theorem exec_branchneg : exec (.branchneg a) s = .next (if s.acc < 0 then s.setPc a else nextSeq s) := by
  simp only [exec, execBranchneg, accNegative, branchTarget, decide_eq_true_eq]
  split <;> rfl

theorem exec_branchzero : exec (.branchzero a) s = .next (if s.acc = 0 then s.setPc a else nextSeq s) := by
  simp only [exec, execBranchzero, accZero, branchTarget, decide_eq_true_eq]
  split <;> rfl

end

/-- What an instruction whose operand is an address can make of a state: a sequential advance after one write of ACC, of one
cell or of the channel; a jump to its operand; the end by HALT; a fault entry, before which at most an input was consumed;
or waiting for the host. -/
inductive ExecEffect (s : State) : Instr → State → Prop where
  | load (a : Nat) : ExecEffect s (.load a) (nextSeq (s.setAcc (s.mem.read a)))
  | store (a : Nat) : ExecEffect s (.store a) (nextSeq (s.setMem (s.mem.write a s.acc)))
  | add (a : Nat) (h : inWord s.regime (s.acc + s.mem.read a)) :
    ExecEffect s (.add a) (nextSeq (s.setAcc (s.acc + s.mem.read a)))
  | addOverflow (a : Nat) (h : ¬ inWord s.regime (s.acc + s.mem.read a)) :
    ExecEffect s (.add a) (raiseFault .overflow (.operation .add) s)
  | subtract (a : Nat) (h : inWord s.regime (s.acc - s.mem.read a)) :
    ExecEffect s (.subtract a) (nextSeq (s.setAcc (s.acc - s.mem.read a)))
  | subtractOverflow (a : Nat) (h : ¬ inWord s.regime (s.acc - s.mem.read a)) :
    ExecEffect s (.subtract a) (raiseFault .overflow (.operation .subtract) s)
  | multiply (a : Nat) (h : inWord s.regime (s.acc * s.mem.read a)) :
    ExecEffect s (.multiply a) (nextSeq (s.setAcc (s.acc * s.mem.read a)))
  | multiplyOverflow (a : Nat) (h : ¬ inWord s.regime (s.acc * s.mem.read a)) :
    ExecEffect s (.multiply a) (raiseFault .overflow (.operation .multiply) s)
  | divide (a : Nat) (h : s.mem.read a ≠ 0) :
    ExecEffect s (.divide a) (nextSeq (s.setAcc (tdiv s.acc (s.mem.read a))))
  | divideByZero (a : Nat) (h : s.mem.read a = 0) :
    ExecEffect s (.divide a) (raiseFault .divisionByZero .nothing s)
  | read (a : Nat) (v : Int) (rest : List InputAnswer) (hin : s.io.input = .value v :: rest) (hv : inWord s.regime v) :
    ExecEffect s (.read a) (nextSeq ((consumeInput rest s).setMem (s.mem.write a v)))
  | readOutOfRange (a : Nat) (v : Int) (rest : List InputAnswer) (hin : s.io.input = .value v :: rest)
    (hv : ¬ inWord s.regime v) :
    ExecEffect s (.read a) (raiseFault .inputOutOfRange (.value v) (consumeInput rest s))
  | readAborted (a : Nat) (rest : List InputAnswer) (hin : s.io.input = .aborted :: rest) :
    ExecEffect s (.read a) (raiseFault .inputAborted .nothing (consumeInput rest s))
  | readWaits (a : Nat) (hin : s.io.input = []) : ExecEffect s (.read a) (await .input s)
  | write (a : Nat) (h : s.io.outputReady = true) : ExecEffect s (.write a) (nextSeq (giveOutput (s.mem.read a) s))
  | writeWaits (a : Nat) (h : s.io.outputReady = false) : ExecEffect s (.write a) (await (.output (s.mem.read a)) s)
  | branch (a : Nat) : ExecEffect s (.branch a) (s.setPc a)
  | branchneg (a : Nat) (h : s.acc < 0) : ExecEffect s (.branchneg a) (s.setPc a)
  | branchnegNot (a : Nat) (h : ¬ s.acc < 0) : ExecEffect s (.branchneg a) (nextSeq s)
  | branchzero (a : Nat) (h : s.acc = 0) : ExecEffect s (.branchzero a) (s.setPc a)
  | branchzeroNot (a : Nat) (h : s.acc ≠ 0) : ExecEffect s (.branchzero a) (nextSeq s)
  | halt (a : Nat) : ExecEffect s (.halt a) (haltWith .haltInstruction s)

/-- Every instruction whose operand is an address answers a next state, and one of `ExecEffect`'s. -/
theorem exec_effect {i : Instr} {s : State} (h : WellFormed s.regime i) : ∃ t, exec i s = .next t ∧ ExecEffect s i t := by
  cases i with
  | read a =>
    rcases hin : s.io.input with _ | ⟨v | _, rest⟩
    · exact ⟨_, exec_read_nil hin, .readWaits a hin⟩
    · by_cases hv : inWord s.regime v
      · exact ⟨_, exec_read_value h hin hv, .read a v rest hin hv⟩
      · exact ⟨_, exec_read_outOfRange hin hv, .readOutOfRange a v rest hin hv⟩
    · exact ⟨_, exec_read_aborted hin, .readAborted a rest hin⟩
  | write a =>
    rcases hr : s.io.outputReady with _ | _
    · exact ⟨_, exec_write_notReady h hr, .writeWaits a hr⟩
    · exact ⟨_, exec_write_ready h hr, .write a hr⟩
  | load a => exact ⟨_, exec_load h, .load a⟩
  | store a => exact ⟨_, exec_store h, .store a⟩
  | add a =>
    by_cases hv : inWord s.regime (s.acc + s.mem.read a)
    · exact ⟨_, (exec_add h).trans (congrArg _ (commitChecked_of_inWord hv)), .add a hv⟩
    · exact ⟨_, (exec_add h).trans (congrArg _ (commitChecked_of_not_inWord hv)), .addOverflow a hv⟩
  | subtract a =>
    by_cases hv : inWord s.regime (s.acc - s.mem.read a)
    · exact ⟨_, (exec_subtract h).trans (congrArg _ (commitChecked_of_inWord hv)), .subtract a hv⟩
    · exact ⟨_, (exec_subtract h).trans (congrArg _ (commitChecked_of_not_inWord hv)), .subtractOverflow a hv⟩
  | multiply a =>
    by_cases hv : inWord s.regime (s.acc * s.mem.read a)
    · exact ⟨_, (exec_multiply h).trans (congrArg _ (commitChecked_of_inWord hv)), .multiply a hv⟩
    · exact ⟨_, (exec_multiply h).trans (congrArg _ (commitChecked_of_not_inWord hv)), .multiplyOverflow a hv⟩
  | divide a =>
    by_cases hm : s.mem.read a = 0
    · exact ⟨_, exec_divide_zero h hm, .divideByZero a hm⟩
    · exact ⟨_, exec_divide_nonzero h hm, .divide a hm⟩
  | branch a => exact ⟨_, rfl, .branch a⟩
  | branchneg a =>
    by_cases hn : s.acc < 0
    · exact ⟨_, exec_branchneg.trans (congrArg _ (if_pos hn)), .branchneg a hn⟩
    · exact ⟨_, exec_branchneg.trans (congrArg _ (if_neg hn)), .branchnegNot a hn⟩
  | branchzero a =>
    by_cases hz : s.acc = 0
    · exact ⟨_, exec_branchzero.trans (congrArg _ (if_pos hz)), .branchzero a hz⟩
    · exact ⟨_, exec_branchzero.trans (congrArg _ (if_neg hz)), .branchzeroNot a hz⟩
  | halt a => exact ⟨_, rfl, .halt a⟩

/-- An instruction that accesses a cell outside the space stops with the memory's own contract (20_memory.md R37); no word
decodes to one (R38). READ is not here: it reaches the cell only with an accepted answer. -/
theorem exec_outOfBounds {i : Instr} {s : State} {a : Nat} (h : ¬ inAddr s.regime a)
    (hi : i = .write a ∨ i = .load a ∨ i = .store a ∨ i = .add a ∨ i = .subtract a ∨ i = .divide a ∨ i = .multiply a) :
    exec i s = .fault (.outOfBounds a) := by
  rcases hi with rfl | rfl | rfl | rfl | rfl | rfl | rfl
  · exact readOperand_of_not_inAddr h _
  · exact readOperand_of_not_inAddr h _
  · simp only [exec, execStore, memWrite_of_not_inAddr h, andThen_error]
  · exact readOperand_of_not_inAddr h _
  · exact readOperand_of_not_inAddr h _
  · exact readOperand_of_not_inAddr h _
  · exact readOperand_of_not_inAddr h _

theorem exec_read_outOfBounds {s : State} {a : Nat} (h : ¬ inAddr s.regime a) {v : Int} {rest : List InputAnswer}
    (hin : s.io.input = .value v :: rest) (hv : inWord s.regime v) : exec (.read a) s = .fault (.outOfBounds a) := by
  simp only [exec, execRead, hin, if_pos hv]
  rw [memWrite_of_not_inAddr (by exact h), andThen_error]

/-- The same as an inversion, for every instruction: what a next state of `exec` is. -/
theorem exec_next {i : Instr} {s t : State} (he : exec i s = .next t) : ExecEffect s i t := by
  by_cases hw : WellFormed s.regime i
  · obtain ⟨u, hu, hc⟩ := exec_effect hw
    rw [hu] at he
    cases he
    exact hc
  · have stop : ∀ f, exec i s ≠ .fault f := fun f hf => by rw [he] at hf; cases hf
    cases i with
    | read a =>
      rcases hin : s.io.input with _ | ⟨v | _, rest⟩
      · rw [exec_read_nil hin] at he; cases he; exact .readWaits a hin
      · by_cases hv : inWord s.regime v
        · exact absurd (exec_read_outOfBounds hw hin hv) (stop _)
        · rw [exec_read_outOfRange hin hv] at he; cases he; exact .readOutOfRange a v rest hin hv
      · rw [exec_read_aborted hin] at he; cases he; exact .readAborted a rest hin
    | branch a => cases he; exact .branch a
    | branchneg a =>
      rw [exec_branchneg] at he; cases he
      split
      · next h => exact .branchneg a h
      · next h => exact .branchnegNot a h
    | branchzero a =>
      rw [exec_branchzero] at he; cases he
      split
      · next h => exact .branchzero a h
      · next h => exact .branchzeroNot a h
    | halt a => cases he; exact .halt a
    | _ a => exact absurd (exec_outOfBounds (a := a) hw (by simp)) (stop _)

/-- No instruction changes the regime (00_scope.md R7). -/
theorem ExecEffect.regime_eq {s t : State} {i : Instr} (h : ExecEffect s i t) : t.regime = s.regime := by
  cases h <;> simp

end Sys2Proof.Machine
end

