-- ==== Sys2Proof/Laws/Step.lean ====
section
/-! SUPPORT. What a step can do, said once: the inversion lemma that proofs about `step` cite. -/

namespace Sys2Proof.Machine

theorem setLifecycle_self {s : State} {l : Lifecycle} (h : s.lifecycle = l) : s.setLifecycle l = s := by
  subst h; rfl

/-- In Ready or Running, a step is one cycle of the Running core (40_execution_cycle.md R64, R65). -/
theorem step_of_steppable {s : State} (h : Steppable s) : step s = cycle (s.setLifecycle .running) := by
  rcases h with h | h
  · simp only [step, stepBody, h]
  · rw [setLifecycle_self h]
    simp only [step, stepBody, h]

/-- In Halted or Faulted, a step is nothing (40_execution_cycle.md R72, R73). -/
theorem step_of_not_steppable {s : State} (h : ¬ Steppable s) : step s = .next s := by
  rcases hl : s.lifecycle with _ | _ | _ | _
  · exact absurd (.inl hl) h
  · exact absurd (.inr hl) h
  · simp only [step, stepBody, hl]
  · simp only [step, stepBody, hl]

/-- What a step can make of a state. -/
inductive StepEffect (s : State) : State → Prop where
  | terminal (h : ¬ Steppable s) : StepEffect s s
  | pcOutOfBounds (hs : Steppable s) (h : ¬ inAddr s.regime s.pc) :
    StepEffect s (raiseFault .programCounterOutOfBounds .nothing (s.setLifecycle .running))
  | undecodable (hs : Steppable s) (hpc : inAddr s.regime s.pc) (e : DecodeError)
    (hd : decode s.regime (s.mem.read s.pc) = .error e) : StepEffect s (decodeFault e (s.setLifecycle .running))
  | executed (hs : Steppable s) (hpc : inAddr s.regime s.pc) (i : Instr)
    (hd : decode s.regime (s.mem.read s.pc) = .ok i) (t : State) (he : ExecEffect (s.setLifecycle .running) i t) :
    StepEffect s t

/-- Every step has one of these effects, from every state: decoding lets no operand through that is no address. -/
theorem step_effect (s : State) : ∃ t, step s = .next t ∧ StepEffect s t := by
  by_cases hs : Steppable s
  · rw [step_of_steppable hs]
    by_cases hpc : inAddr s.regime s.pc
    · rw [cycle_of_inAddr (s := s.setLifecycle .running) hpc]
      simp only [State.setLifecycle_regime, State.setLifecycle_mem, State.setLifecycle_pc]
      rcases hd : decode s.regime (s.mem.read s.pc) with e | i
      · exact ⟨_, rfl, .undecodable hs hpc e hd⟩
      · obtain ⟨t, ht, he⟩ := exec_effect (s := s.setLifecycle .running) (decode_ok hd).2.2.2
        exact ⟨t, ht, .executed hs hpc i hd t he⟩
    · exact ⟨_, if_neg hpc, .pcOutOfBounds hs hpc⟩
  · exact ⟨s, step_of_not_steppable hs, .terminal hs⟩

/-- The same as an inversion: what a next state of `step` is. -/
theorem step_next {s t : State} (h : step s = .next t) : StepEffect s t := by
  obtain ⟨u, hu, he⟩ := step_effect s
  rw [hu] at h
  cases h
  exact he

theorem reset_mem_wf (r : Regime) : (State.resetOf r).mem.wf := Memory.wf_nil

/-- `load` keeps the canonical form, whether it succeeds or not. -/
theorem loadImage_mem_wf {s : State} (h : s.mem.wf) (image : List Int) : (loadImage image s).2.mem.wf := by
  unfold loadImage
  split
  · exact h
  · exact Memory.wf_writeFrom Memory.wf_nil 0 image

/-- Every step keeps the canonical form of memory. -/
theorem step_mem_wf {s t : State} (h : s.mem.wf) (hs : step s = .next t) : t.mem.wf := by
  cases step_next hs with
  | terminal => exact h
  | pcOutOfBounds => exact h
  | undecodable _ _ e => cases e <;> exact h
  | executed _ _ i _ _ he =>
    cases he <;>
      simp only [nextSeq_mem, State.setAcc_mem, State.setMem_mem, State.setPc_mem, raiseFault_mem, consumeInput_mem,
        giveOutput_mem, await_mem, haltWith_mem, State.setLifecycle_mem] <;>
      first | exact h | exact Memory.wf_write h _ _

end Sys2Proof.Machine
end

