-- ==== Sys2Proof/Laws/Host.lean ====
section
/-! SUPPORT. What the host's operations can do: load, and the ranges that loading and every write keep. -/

namespace Sys2Proof.Machine

theorem memWords_eq (r : Regime) : r.memWords = r.maxAddress + 1 := by cases r <;> rfl

/-- What a memory in range reads is a word (20_memory.md R36). -/
theorem Memory.InRange.read {r : Regime} {m : Memory} (h : m.InRange r) (a : Nat) : inWord r (m.read a) := by
  rcases Memory.read_cases m a with h' | h'
  · rw [h']; exact inWord_zero r
  · exact (h _ h').2

theorem Memory.InRange.write {r : Regime} {m : Memory} (h : m.InRange r) {a : Nat} {v : Int} (ha : inAddr r a)
    (hv : inWord r v) : (m.write a v).InRange r := by
  intro c hc
  rcases Memory.mem_write hc with rfl | hc
  · exact ⟨ha, hv⟩
  · exact h c hc

theorem Memory.InRange.writeFrom {r : Regime} {m : Memory} (h : m.InRange r) {a : Nat} {ws : List Int}
    (ha : a + ws.length ≤ r.memWords) (hw : ∀ w ∈ ws, inWord r w) : (m.writeFrom a ws).InRange r := by
  induction ws generalizing m a with
  | nil => exact h
  | cons w ws ih =>
    rw [memWords_eq, List.length_cons] at ha
    have hin : inAddr r a := by simp only [inAddr]; omega
    exact ih (h.write hin (hw w (by simp))) (by rw [memWords_eq]; omega) fun x hx => hw x (by simp [hx])

/-- The check of an image passes exactly when the image fits and holds words only. -/
theorem loadCheck_eq_none {r : Regime} {image : List Int} {i : Nat} :
    loadCheck r i image = none ↔ (image = [] ∨ i + image.length ≤ r.memWords + 1) ∧ ∀ w ∈ image, inWord r w := by
  induction image generalizing i with
  | nil => simp [loadCheck]
  | cons w ws ih =>
    simp only [loadCheck]
    split
    · next h => simp; omega
    · split
      · next hw =>
        have hlen : (ws = [] ∨ i + 1 + ws.length ≤ r.memWords + 1) ↔ i + (ws.length + 1) ≤ r.memWords + 1 := by
          rcases ws with _ | ⟨x, xs⟩ <;> simp <;> omega
        simp only [ih, hlen, List.mem_cons, forall_eq_or_imp, List.length_cons, reduceCtorEq, false_or]
        tauto
      · next hw =>
        simp only [reduceCtorEq, false_iff, List.mem_cons, forall_eq_or_imp]
        tauto

/-- A load that fails is the state as it was; one that succeeds is the reset core with the image in memory. -/
theorem loadImage_cases (image : List Int) (s : State) :
    (∃ e, loadCheck s.regime 1 image = some e ∧ loadImage image s = (some e, s)) ∨
    (loadCheck s.regime 1 image = none ∧
      loadImage image s = (none, (resetCore s).setMem (Memory.writeFrom [] 0 image))) := by
  unfold loadImage
  rcases h : loadCheck s.regime 1 image with _ | e
  · exact .inr ⟨rfl, rfl⟩
  · exact .inl ⟨e, rfl, rfl⟩

/-- A line that is accepted holds a word of the regime (70_reset_and_hazards.md R118). -/
theorem readLine_accepted {r : Regime} {line : List Char} {v : Int} (h : readLine r line = .accepted v) : inWord r v := by
  have key : ∀ ok x, acceptIf r ok x = .accepted v → inWord r v := by
    intro ok x h
    unfold acceptIf at h
    split at h
    · next hb =>
      cases h
      simp only [Bool.and_eq_true, decide_eq_true_eq] at hb
      exact hb.2
    · cases h
  unfold readLine at h
  split at h
  · cases h
  · split at h
    · cases h
    · exact key _ _ h
    · exact key _ _ h
    · cases h

/-- A view at a step boundary is what it shows of the state (40_execution_cycle.md R77). -/
theorem atStepBoundary_of_none {α : Type} {view : State → α} {s : State} (h : s.io.request = none) :
    atStepBoundary view s = .ok (view s) := if_pos h

/-- Inside a step there is no view (10_state.md R31). -/
theorem atStepBoundary_of_ne_none {α : Type} {view : State → α} {s : State} (h : s.io.request ≠ none) :
    atStepBoundary view s = .error .hostInsideStep := if_neg h

theorem hostCall_of_none {c : HostCall} {s : State} (h : s.io.request = none) : hostCall c s = c.perform s := by
  rw [hostCall, atStepBoundary_of_none h]

theorem hostCall_of_ne_none {c : HostCall} {s : State} (h : s.io.request ≠ none) :
    hostCall c s = .refused .hostInsideStep := by
  rw [hostCall, atStepBoundary_of_ne_none h]

/-- A call of the host that answers was made at a step boundary. -/
theorem hostCall_next {c : HostCall} {s t : State} (h : hostCall c s = .next t) :
    s.io.request = none ∧ c.perform s = .next t := by
  by_cases hr : s.io.request = none
  · exact ⟨hr, hostCall_of_none hr ▸ h⟩
  · rw [hostCall_of_ne_none hr] at h; cases h

/-- One more step of the cap: the run goes on from a step that returns `Ok(Running)` and ends at any other
(40_execution_cycle.md R74). -/
theorem runFor_succ {n : Nat} {s t : State} (h : step s = .next t) :
    runFor (n + 1) s = if stepResult t = some .running then runFor n t else .next t := by
  rw [runFor, h]

/-- What holds before a run and is kept by every step holds after it. -/
theorem runFor_keeps {P : State → Prop} (hstep : ∀ s t, P s → step s = .next t → P t) {n : Nat} {s t : State} (hs : P s)
    (h : runFor n s = .next t) : P t := by
  induction n generalizing s with
  | zero => cases h; exact hs
  | succ n ih =>
    obtain ⟨u, hu, -⟩ := step_effect s
    rw [runFor_succ hu] at h
    split at h
    · exact ih (hstep s u hs hu) h
    · cases h; exact hstep s t hs hu

theorem isDigit_iff (c : Char) : isDigit c = true ↔ 48 ≤ c.toNat ∧ c.toNat ≤ 57 := by
  simp only [isDigit, Bool.and_eq_true, decide_eq_true_eq]
  exact Iff.rfl

theorem digitRow_length (k n : Nat) : (digitRow k n).length = k := by
  induction k generalizing n with
  | zero => rfl
  | succ k ih => simp [digitRow, ih]

end Sys2Proof.Machine
end

