-- ==== Sys2Proof/Laws/PerInstr.lean ====
section
/-! SUPPORT. The opcode table read both ways, per instruction. -/

namespace Sys2Proof.Laws.OpcodeTable

/-- The opcode the encoder gives an instruction dispatches back to it (30_encoding.md R57, 40_execution_cycle.md R68). -/
def Statement (i : Instr) : Prop := ofOpcode i.opcode i.operand = some i

theorem read (a : Nat) : Statement (.read a) := rfl
theorem write (a : Nat) : Statement (.write a) := rfl
theorem load (a : Nat) : Statement (.load a) := rfl
theorem store (a : Nat) : Statement (.store a) := rfl
theorem add (a : Nat) : Statement (.add a) := rfl
theorem subtract (a : Nat) : Statement (.subtract a) := rfl
theorem divide (a : Nat) : Statement (.divide a) := rfl
theorem multiply (a : Nat) : Statement (.multiply a) := rfl
theorem branch (a : Nat) : Statement (.branch a) := rfl
theorem branchneg (a : Nat) : Statement (.branchneg a) := rfl
theorem branchzero (a : Nat) : Statement (.branchzero a) := rfl
theorem halt (a : Nat) : Statement (.halt a) := rfl

end Sys2Proof.Laws.OpcodeTable
end

