-- ==== Sys2Proof/Tests/Slice0.lean ====
section
/-! SUPPORT. The model's own tests: expected results are the spec's (95_test_vectors.md, by its vector names, or the encoding
column of 30_encoding.md R57); then, for each statement with hypotheses, states that meet them. -/

namespace Sys2Proof.Tests

open Sys2Proof.Machine

/-! ## WellFormed refuses an out-of-range operand of every operation -/

theorem test_wellFormed_refuses_wide :
    (∀ i ∈ ([.read 250, .write 250, .load 250, .store 250, .add 250, .subtract 250, .divide 250, .multiply 250,
      .branch 250, .branchneg 250, .branchzero 250, .halt 250] : List Instr), ¬ WellFormed .wide i) := by decide

theorem test_wellFormed_refuses_narrow : ¬ WellFormed .narrow (.halt 100) ∧ WellFormed .narrow (.halt 99) := by decide

/-! ## Words written out from the encoding column -/

theorem test_decode_read : decode .wide 10007 = .ok (.read 7) ∧ decode .narrow 1007 = .ok (.read 7) := ⟨rfl, rfl⟩
theorem test_decode_write : decode .wide 11249 = .ok (.write 249) ∧ decode .narrow 1199 = .ok (.write 99) := ⟨rfl, rfl⟩
theorem test_decode_load : decode .wide 20002 = .ok (.load 2) ∧ decode .narrow 2004 = .ok (.load 4) := ⟨rfl, rfl⟩
theorem test_decode_store : decode .wide 21030 = .ok (.store 30) ∧ decode .narrow 2130 = .ok (.store 30) := ⟨rfl, rfl⟩
theorem test_decode_add : decode .wide 30050 = .ok (.add 50) ∧ decode .narrow 3050 = .ok (.add 50) := ⟨rfl, rfl⟩
theorem test_decode_subtract : decode .wide 31011 = .ok (.subtract 11) ∧ decode .narrow 3111 = .ok (.subtract 11) := ⟨rfl, rfl⟩
theorem test_decode_divide : decode .wide 32022 = .ok (.divide 22) ∧ decode .narrow 3222 = .ok (.divide 22) := ⟨rfl, rfl⟩
theorem test_decode_multiply : decode .wide 33010 = .ok (.multiply 10) ∧ decode .narrow 3310 = .ok (.multiply 10) := ⟨rfl, rfl⟩
theorem test_decode_branch : decode .wide 40249 = .ok (.branch 249) ∧ decode .narrow 4002 = .ok (.branch 2) := ⟨rfl, rfl⟩
theorem test_decode_branchneg : decode .wide 41004 = .ok (.branchneg 4) ∧ decode .narrow 4104 = .ok (.branchneg 4) := ⟨rfl, rfl⟩
theorem test_decode_branchzero : decode .wide 42009 = .ok (.branchzero 9) ∧ decode .narrow 4209 = .ok (.branchzero 9) := ⟨rfl, rfl⟩
theorem test_decode_halt : decode .wide 43000 = .ok (.halt 0) ∧ decode .narrow 4399 = .ok (.halt 99) := ⟨rfl, rfl⟩

/-- T-DEC1 to T-DEC11, T-DECN1. -/
theorem test_decode_rejects :
    decode .wide (-43000) = .error .invalidInstruction ∧ decode .wide 0 = .error (.invalidOpcode 0) ∧
    decode .wide 9249 = .error (.invalidOpcode 9) ∧ decode .wide 999249 = .error (.invalidOpcode 999) ∧
    decode .wide 10250 = .error (.invalidOperand 250) ∧ decode .wide 44250 = .error (.invalidOperand 250) ∧
    decode .narrow 9999 = .error (.invalidOpcode 99) := ⟨rfl, rfl, rfl, rfl, rfl, rfl, rfl⟩

/-- The host's view of the table: a WIDE word is its number. -/
theorem test_decodeTableWord : decodeTableWord 24 33249 = some (.multiply 249) ∧ decodeTableWord 24 33250 = none := by decide

/-! ## One step -/

/-- A Running core of a regime with `PC`, ACC and the listed cells. -/
def core (r : Regime) (pc : Nat) (acc : Int) (mem : Memory) : State :=
  { State.resetOf r with pc := pc, acc := acc, mem := mem, lifecycle := .running }

/-- The same with answers of the host waiting. -/
def coreWithInput (pc : Nat) (acc : Int) (mem : Memory) (input : List InputAnswer) : State :=
  { core .wide pc acc mem with io := { IoChannel.fresh with input := input } }

/-- A field of the state after one step. -/
def after {α : Type} (f : State → α) (s : State) : Option α :=
  match step s with
  | .next t => some (f t)
  | .fault _ => none
  | .refused _ => none

/-- What a step did: STATUS, PC and ACC. -/
def seen (s : State) : Option (Nat × Nat × Int) := after (fun t => ((statusBits t).toNat, t.pc, t.acc)) s

/-- T-IO1, and the READ at the last address. -/
theorem test_read :
    seen (coreWithInput 3 12 [(3, 10020)] [.value 999999]) = some (0x01, 4, 12) ∧
    after (fun t => t.mem.read 20) (coreWithInput 3 12 [(3, 10020)] [.value 999999]) = some 999999 ∧
    seen (coreWithInput 249 12 [(249, 10000)] [.value 5]) = some (0x0A, 249, 12) := by decide

/-- T-IO3, T-IO5: the faults of READ. -/
theorem test_read_faults :
    after (fun t => t.fault.map fun f => f.detail) (coreWithInput 3 12 [(3, 10020)] [.value 1000000]) =
      some (some (.value 1000000)) ∧
    seen (coreWithInput 3 12 [(3, 10020)] [.aborted]) = some (0x83, 3, 12) := by decide

/-- T-IO8, T-IO9. -/
theorem test_write :
    after (fun t => t.io.output) (core .wide 3 12 [(3, 11020), (20, -7)]) = some [-7] ∧
    after (fun t => t.io.output) (core .wide 3 12 [(3, 11003)]) = some [11003] := by decide

/-- T-LS1, T-LS3. -/
theorem test_load :
    seen (core .wide 1 0 [(1, 20002), (2, 777777)]) = some (0x01, 2, 777777) ∧
    seen (core .wide 1 0 [(1, 20001)]) = some (0x01, 2, 20001) := by decide

/-- T-LS5, and the STORE at the last address. -/
theorem test_store :
    after (fun t => (t.mem, t.pc, t.acc)) (core .wide 1 (-5) [(1, 21030)]) = some ([(1, 21030), (30, -5)], 2, -5) ∧
    after (fun t => (t.mem, (statusBits t).toNat)) (core .wide 249 9 [(249, 21000)]) =
      some ([(0, 9), (249, 21000)], 0x0A) := by decide

/-- T-AR1, T-AR2. -/
theorem test_add :
    seen (core .wide 0 999999 [(0, 30050), (50, 1)]) = some (0x53, 0, 999999) ∧
    seen (core .wide 0 999998 [(0, 30050), (50, 1)]) = some (0x01, 1, 999999) := by decide

/-- T-AR9, T-AR7. -/
theorem test_subtract :
    seen (core .wide 0 3 [(0, 31050), (50, 10)]) = some (0x01, 1, -7) ∧
    seen (core .wide 0 (-999999) [(0, 31050), (50, 1)]) = some (0x53, 0, -999999) := by decide

/-- W3, T-AR21 to T-AR25. -/
theorem test_divide :
    seen (core .wide 0 (-10) [(0, 32005), (5, 3)]) = some (0x01, 1, -3) ∧
    seen (core .wide 0 10 [(0, 32050), (50, -3)]) = some (0x01, 1, -3) ∧
    seen (core .wide 0 (-1) [(0, 32050), (50, 2)]) = some (0x01, 1, 0) ∧
    seen (core .wide 0 (-999999) [(0, 32050), (50, -1)]) = some (0x01, 1, 999999) ∧
    seen (core .wide 0 0 [(0, 32050)]) = some (0x63, 0, 0) := by decide

/-- T-AR13, T-AR16, and NARROW 100 times 100. -/
theorem test_multiply :
    seen (core .wide 0 999 [(0, 33050), (50, 1001)]) = some (0x01, 1, 999999) ∧
    seen (core .wide 0 999999 [(0, 33050), (50, 999999)]) = some (0x53, 0, 999999) ∧
    seen (core .narrow 0 100 [(0, 3350), (50, 100)]) = some (0x53, 0, 100) := by decide

/-- T-CT1, T-CT3. -/
theorem test_branch :
    seen (core .wide 6 1 [(6, 40002)]) = some (0x01, 2, 1) ∧ seen (core .wide 249 1 [(249, 40000)]) = some (0x01, 0, 1) := by
  decide

/-- T-CT5 to T-CT8. -/
theorem test_branchneg :
    seen (core .wide 2 (-999999) [(2, 41004)]) = some (0x01, 4, -999999) ∧ seen (core .wide 2 0 [(2, 41004)]) = some (0x01, 3, 0) ∧
    seen (core .wide 249 0 [(249, 41004)]) = some (0x0A, 249, 0) ∧ seen (core .wide 249 (-1) [(249, 41004)]) = some (0x01, 4, -1) := by
  decide

/-- T-CT9, T-CT10, T-CT13. -/
theorem test_branchzero :
    seen (core .wide 2 0 [(2, 42009)]) = some (0x01, 9, 0) ∧ seen (core .wide 2 1 [(2, 42009)]) = some (0x01, 3, 1) ∧
    seen { State.reset with mem := [(0, 42005)] } = some (0x01, 5, 0) := by decide

/-- T-CT12, T-DEC13. -/
theorem test_halt :
    seen (core .wide 249 1 [(249, 43000)]) = some (0x06, 249, 1) ∧ seen (core .wide 7 0 [(7, 43250)]) = some (0x43, 7, 0) := by decide

/-- The fault record of T-DEC9. -/
theorem test_fault_record :
    after (fun t => t.fault) (core .wide 7 0 [(7, 10250)]) =
      some (some ⟨.invalidOperand, 7, some 10250, some 10, some 250, .operand 250⟩) := by decide

/-- The fault record of T-DEC1. -/
theorem test_fault_record_negative :
    after (fun t => t.fault) (core .wide 7 0 [(7, -1)]) =
      some (some ⟨.invalidInstruction, 7, some (-1), none, none, .nothing⟩) := by decide

/-- T-TS5: stepping a core on which nothing was loaded. -/
theorem test_reset_step : seen State.reset = some (0x33, 0, 0) := by decide

/-- The reset column of R30, the views of T-DEC9's record, and a core inside its step (R77). -/
theorem test_views :
    status State.reset = .ok 0 ∧ faultDetail State.reset = .ok ⟨false, 0⟩ ∧
    faultDetail (raiseFault .invalidOperand (.operand 250) (core .wide 7 0 [(7, 10250)])) = .ok ⟨true, 250⟩ ∧
    accumulator (await .input (core .wide 3 12 [(3, 10020)])) = .error .hostInsideStep ∧
    loadText "+043000".toList (await .input (core .wide 3 12 [(3, 10020)])) = .error .hostInsideStep :=
  ⟨rfl, rfl, rfl, rfl, rfl⟩

/-- A word placed where the next step fetches is what it runs, after reset and in a terminal state. -/
theorem test_withFetchWord :
    seen (State.reset.withFetchWord 24 20000) = some (0x01, 1, 20000) ∧
    seen ({ State.reset with lifecycle := .halted, haltCause := .pcExhausted, pc := 249 }.withFetchWord 24 40007) =
      some (0x01, 7, 0) := by decide

/-- T-LDR1 to T-LDR3 on short images. -/
theorem test_load_interface :
    (loadImage [10004, 20004] (core .wide 9 5 [(100, 5)])).2 = { State.reset with mem := [(0, 10004), (1, 20004)] } ∧
    loadImage [1, 1000000] State.reset = (some (.formatError 2), State.reset) ∧
    (loadImage (List.replicate 101 0) (State.resetOf .narrow)).1 = some (.capacityExceeded 101) := by decide

/-- W7, T-LDR5 to T-LDR10. -/
theorem test_text_loader :
    parseText .wide "# header\n+010005\n\n+12345".toList = .error (.formatError 4 "+12345".toList) ∧
    parseText .wide "+010000\r\n-000045\n".toList = .ok [10000, -45] ∧
    readLine .wide "010000".toList = .malformed ∧ readLine .wide " +010000".toList = .malformed ∧
    readLine .wide "+0100O0".toList = .malformed ∧ readLine .wide "-000000".toList = .accepted 0 ∧
    formatWord .wide (-45) = "-000045".toList := ⟨rfl, rfl, rfl, rfl, rfl, rfl, rfl⟩

/-! ## States that meet the statements' hypotheses -/

/-- A Running core with a canonical memory in range has the invariant. -/
theorem core_inv {r : Regime} {pc : Nat} {acc : Int} {mem : Memory} (hw : mem.wf) (hm : mem.InRange r) (ha : inWord r acc)
    (hp : inAddr r pc) : Inv (core r pc acc mem) where
  memWf := hw
  memInRange := hm
  accInWord := ha
  pcInAddr := hp
  haltCauseIff := by simp [core, State.resetOf]
  faultIff := by simp [core, State.resetOf]
  faultRecords := by simp [core, State.resetOf]
  requestRunning := by simp [core]
  requestMatches := trivial

/-- A core halted by HALT at address 3. -/
def haltedCore : State := { core .wide 3 0 [(3, 43000)] with lifecycle := .halted, haltCause := .haltInstruction }

/-- A core faulted at address 7 by an invalid operand. -/
def faultedCore : State := raiseFault .invalidOperand (.operand 250) (core .wide 7 0 [(7, 10250)])

theorem haltedCore_inv : Inv haltedCore where
  memWf := by decide
  memInRange := by unfold Memory.InRange; decide
  accInWord := by decide
  pcInAddr := by decide
  haltCauseIff := by decide
  faultIff := by decide
  faultRecords := by intro f h; cases h
  requestRunning := by decide
  requestMatches := trivial

theorem faultedCore_inv : Inv faultedCore where
  memWf := by decide
  memInRange := by unfold Memory.InRange; decide
  accInWord := by decide
  pcInAddr := by decide
  haltCauseIff := by decide
  faultIff := by decide
  faultRecords := by intro f h; cases h; rfl
  requestRunning := by decide
  requestMatches := trivial

theorem witness_DecodeOfEncode : WellFormed .wide (.load 249) ∧ WellFormed .narrow (.halt 99) := by decide

theorem witness_EncodeOfDecode : decode .wide 10249 = .ok (.read 249) ∧ decode .narrow 4300 = .ok (.halt 0) := ⟨rfl, rfl⟩

theorem witness_FieldsAreDecimalDigitGroups :
    ((0 : Int) ≤ 0 ∧ (0 : Int) ≤ 999999) ∧ ((0 : Int) ≤ 999999 ∧ (999999 : Int) ≤ 999999) ∧
    ((0 : Int) ≤ 9999 ∧ (9999 : Int) ≤ 9999) := by decide

theorem witness_DecodeChecksInOrder :
    (-1 : Int) < 0 ∧ ((0 : Int) ≤ 10250 ∧ ¬ inAddr .wide (splitOperand .wide 10250)) ∧
    ((0 : Int) ≤ 44249 ∧ inAddr .wide (splitOperand .wide 44249) ∧
      ofOpcode (splitOpcode .wide 44249) (splitOperand .wide 44249) = none) := by decide

theorem witness_DispatcherHasOneArmPerOpcode : inAddr .wide 249 ∧ inAddr .narrow 99 ∧ inAddr .wide 0 := by decide

theorem witness_UnassignedOpcodesFault :
    Steppable (core .wide 7 0 [(7, 999249)]) ∧ inAddr .wide 7 ∧ 999 ≤ Regime.opcodeMax .wide ∧ inAddr .wide 249 ∧
    999 ∉ [10, 11, 20, 21, 30, 31, 32, 33, 40, 41, 42, 43] ∧
    (core .wide 7 0 [(7, 999249)]).mem.read 7 = enc .wide 999 249 := ⟨.inr rfl, by decide⟩

theorem witness_RegimesAgreeOnOperations : 43 ≤ 99 ∧ 99 ≤ 99 ∧ decode .narrow ((43 * 100 + 99 : Nat) : Int) = .ok (.halt 99) :=
  ⟨by decide, by decide, rfl⟩

theorem witness_StepRunsDecodedInstruction :
    Steppable { core .wide 249 0 [(249, 43000)] with lifecycle := .ready } ∧ inAddr .wide 249 ∧
    decode .wide ((core .wide 249 0 [(249, 43000)]).mem.read 249) = .ok (.halt 0) := ⟨.inl rfl, by decide, rfl⟩

theorem witness_StepFaultPriority :
    (Steppable (core .wide 250 0 []) ∧ ¬ inAddr .wide 250) ∧
    (Steppable (core .wide 249 0 [(249, -1)]) ∧ inAddr .wide 249 ∧ (core .wide 249 0 [(249, -1)]).mem.read 249 < 0) ∧
    (Steppable (core .wide 0 0 [(0, 999999)]) ∧ inAddr .wide 0 ∧ ¬ (core .wide 0 0 [(0, 999999)]).mem.read 0 < 0 ∧
      ¬ inAddr .wide (splitOperand .wide ((core .wide 0 0 [(0, 999999)]).mem.read 0))) ∧
    (Steppable State.reset ∧ inAddr .wide 0 ∧ ¬ State.reset.mem.read 0 < 0 ∧
      inAddr .wide (splitOperand .wide (State.reset.mem.read 0)) ∧
      splitOpcode .wide (State.reset.mem.read 0) ∉ [10, 11, 20, 21, 30, 31, 32, 33, 40, 41, 42, 43]) ∧
    (Steppable (core .wide 0 999999 [(0, 30000)]) ∧ inAddr .wide 0 ∧
      decode .wide ((core .wide 0 999999 [(0, 30000)]).mem.read 0) = .ok (.add 0) ∧
      step (core .wide 0 999999 [(0, 30000)]) =
        .next (raiseFault .overflow (.operation .add) (core .wide 0 999999 [(0, 30000)]))) :=
  ⟨⟨.inr rfl, by decide⟩, ⟨.inr rfl, by decide⟩, ⟨.inr rfl, by decide⟩, ⟨.inl rfl, by decide⟩, .inr rfl, by decide, rfl, rfl⟩

theorem witness_TerminalStepsDoNothing :
    (Inv haltedCore ∧ haltedCore.lifecycle = .halted) ∧ (Inv faultedCore ∧ faultedCore.lifecycle = .faulted) :=
  ⟨⟨haltedCore_inv, rfl⟩, faultedCore_inv, rfl⟩

theorem witness_MemoryAccessPrimitives :
    249 ≤ (core .wide 0 0 [(249, 5)]).regime.maxAddress ∧ (core .wide 0 0 [(249, 5)]).mem.wf ∧
    ¬ 250 ≤ (core .wide 0 0 [(249, 5)]).regime.maxAddress := by decide

/-- READ at both ends of the word range, at an ordinary and at the last `PC`. -/
theorem witness_ReadStoresAcceptedInput :
    (inAddr .wide 249 ∧ (coreWithInput 0 0 [(0, 10249)] [.value 999999]).mem.wf ∧
      (coreWithInput 0 0 [(0, 10249)] [.value 999999]).io.input = [.value 999999] ∧
      Regime.minWord .wide ≤ 999999 ∧ 999999 ≤ Regime.maxWord .wide) ∧
    (inAddr .wide 0 ∧ (coreWithInput 249 0 [(249, 10000)] [.value (-999999)]).mem.wf ∧
      (coreWithInput 249 0 [(249, 10000)] [.value (-999999)]).io.input = [.value (-999999)] ∧
      Regime.minWord .wide ≤ -999999 ∧ -999999 ≤ Regime.maxWord .wide) := by decide

theorem witness_ReadFaultsOnBadInput :
    (coreWithInput 0 0 [(0, 10020)] [.aborted]).io.input = [.aborted] ∧
    ((coreWithInput 0 0 [(0, 10020)] [.value 1000000]).io.input = [.value 1000000] ∧ Regime.maxWord .wide < 1000000) ∧
    ((coreWithInput 0 0 [(0, 10020)] [.value (-1000000)]).io.input = [.value (-1000000)] ∧ -1000000 < Regime.minWord .wide) := by
  decide

theorem witness_WriteGivesCellToHost :
    (inAddr .wide 249 ∧ (core .wide 0 0 [(0, 11249)]).io.outputReady = true) ∧
    (inAddr .wide 0 ∧ (core .wide 249 0 [(249, 11000)]).io.outputReady = true) := by decide

theorem witness_LoadCopiesCellToAccumulator : inAddr (core .wide 249 0 [(249, 20249)]).regime 249 := by decide

theorem witness_StoreCopiesAccumulatorToCell :
    inAddr (core .wide 249 9 [(249, 21249)]).regime 249 ∧ (core .wide 249 9 [(249, 21249)]).mem.wf := by decide

/-- ADD at the top of the range, one above it, and one below its bottom. -/
theorem witness_AddCommitsOrOverflows :
    inAddr .wide 50 ∧
    ((999998 : Int) + (core .wide 0 999998 [(50, 1)]).mem.read 50 = 999999 ∧ Regime.minWord .wide ≤ 999999 ∧
      999999 ≤ Regime.maxWord .wide) ∧
    Regime.maxWord .wide < 999999 + (core .wide 0 999999 [(50, 1)]).mem.read 50 ∧
    -999999 + (core .wide 0 (-999999) [(50, -1)]).mem.read 50 < Regime.minWord .wide := by decide

theorem witness_SubtractCommitsOrOverflows :
    inAddr .wide 50 ∧
    ((-999998 : Int) - (core .wide 0 (-999998) [(50, 1)]).mem.read 50 = -999999 ∧ Regime.minWord .wide ≤ -999999 ∧
      -999999 ≤ Regime.maxWord .wide) ∧
    -999999 - (core .wide 0 (-999999) [(50, 1)]).mem.read 50 < Regime.minWord .wide ∧
    Regime.maxWord .wide < 1 - (core .wide 0 1 [(50, -999999)]).mem.read 50 := by decide

theorem witness_MultiplyCommitsOrOverflows :
    inAddr .wide 50 ∧
    ((999 : Int) * (core .wide 0 999 [(50, 1001)]).mem.read 50 = 999999 ∧ Regime.minWord .wide ≤ 999999 ∧
      999999 ≤ Regime.maxWord .wide) ∧
    Regime.maxWord .wide < 1000 * (core .wide 0 1000 [(50, 1000)]).mem.read 50 ∧
    -1000 * (core .wide 0 (-1000) [(50, 1000)]).mem.read 50 < Regime.minWord .wide := by decide

theorem witness_DivideCommitsQuotientOrFaults :
    inAddr .wide 50 ∧ (core .wide 0 (-999999) [(50, -1)]).mem.read 50 ≠ 0 ∧ (core .wide 0 0 []).mem.read 50 = 0 := by decide

theorem witness_BranchSetsProgramCounter :
    249 ≤ Regime.maxAddress .wide ∧ (Regime.maxAddress .wide < 250 ∧ 250 ≤ Regime.operandMax .wide) ∧
    (Regime.maxAddress .wide < 999 ∧ 999 ≤ Regime.operandMax .wide) := by decide

theorem witness_ConditionalBranchesFollowAccumulator :
    (core .wide 249 (-1) []).acc < 0 ∧ ¬ (core .wide 249 0 []).acc < 0 ∧ (core .wide 249 0 []).acc = 0 ∧
    (core .wide 249 1 []).acc ≠ 0 := by decide

theorem witness_SequentialAdvanceOrExhaustion :
    (WellFormed .wide (.load 2) ∧ (core .wide 248 0 [(2, 7)]).lifecycle = .running ∧
      exec (.load 2) (core .wide 248 0 [(2, 7)]) = .next (core .wide 249 7 [(2, 7)]) ∧
      (core .wide 249 7 [(2, 7)]).lifecycle ≠ .faulted ∧ (core .wide 249 7 [(2, 7)]).io.request = none ∧
      (core .wide 248 0 [(2, 7)]).pc < Regime.maxAddress .wide) ∧
    (WellFormed .wide (.branchneg 2) ∧ ¬ (core .wide 249 0 []).acc < 0 ∧ (core .wide 249 0 []).pc = Regime.maxAddress .wide ∧
      exec (.branchneg 2) (core .wide 249 0 []) = .next (haltWith .pcExhausted (core .wide 249 0 []))) :=
  ⟨⟨by decide, rfl, rfl, by decide, rfl, by decide⟩, by decide, by decide, rfl, rfl⟩

theorem witness_OverflowDetection :
    inAddr (core .wide 0 999999 [(50, 1)]).regime 50 ∧ ovf .wide (999999 + (core .wide 0 999999 [(50, 1)]).mem.read 50) = true ∧
    ovf .wide (999999 - (core .wide 0 999999 [(50, 1)]).mem.read 50) = false ∧
    ovf .wide (-999999 * (core .wide 0 (-999999) [(50, 1)]).mem.read 50) = false := by decide

theorem witness_TruncatingDivision : (3 : Int) ≠ 0 ∧ (-3 : Int) ≠ 0 := by decide

theorem witness_DivideNeverOverflows :
    (inWord .wide (-999999) ∧ (-1 : Int) ≠ 0) ∧ inAddr .wide 50 ∧ (core .wide 0 7 []).fault = none ∧
    exec (.divide 50) (core .wide 0 7 []) = .next (raiseFault .divisionByZero .nothing (core .wide 0 7 [])) :=
  ⟨by decide, by decide, rfl, rfl⟩

theorem witness_AluWidthsSuffice :
    inWord .wide (-999999) ∧ inWord .wide 999999 ∧ inWord .narrow 9999 ∧ (AluOp.divide = .divide → (-999999 : Int) ≠ 0) := by decide

theorem witness_PhysicalWidthsSuffice :
    inWord .wide (-999999) ∧ inAddr .wide 249 ∧ (0 : Int) ≤ 999999 ∧ 999999 ≤ Regime.maxWord .wide := by decide

theorem witness_AccumulatorFormsFrame :
    (∃ a, Instr.add 50 = .load a ∨ Instr.add 50 = .add a ∨ Instr.add 50 = .subtract a ∨ Instr.add 50 = .divide a ∨
      Instr.add 50 = .multiply a) ∧
    exec (.add 50) (core .wide 0 1 [(50, 1)]) = .next (core .wide 1 2 [(50, 1)]) := ⟨⟨50, by simp⟩, rfl⟩

theorem witness_StoringFormsFrame :
    (core .wide 0 5 [(1, 7)]).mem.wf ∧ exec (.store 0) (core .wide 0 5 [(1, 7)]) = .next (core .wide 1 5 [(0, 5), (1, 7)]) ∧
    exec (.read 0) (coreWithInput 0 5 [] [.aborted]) =
      .next (raiseFault .inputAborted .nothing (coreWithInput 0 5 [] [])) := ⟨by decide, rfl, rfl⟩

theorem witness_ControlAndOutputFormsFrame :
    exec (.branch 9) (core .wide 0 5 [(1, 7)]) = .next (core .wide 9 5 [(1, 7)]) ∧
    exec (.write 1) (core .wide 0 5 [(1, 7)]) = .next (giveOutput 7 (core .wide 1 5 [(1, 7)])) := ⟨rfl, rfl⟩

theorem witness_OnlyTheseInstructionsWrite :
    (step (core .wide 1 0 [(1, 20001)]) = .next (core .wide 2 20001 [(1, 20001)]) ∧
      (core .wide 2 20001 [(1, 20001)]).acc ≠ (core .wide 1 0 [(1, 20001)]).acc) ∧
    ((core .wide 1 7 [(1, 21001)]).mem.wf ∧ step (core .wide 1 7 [(1, 21001)]) = .next (core .wide 2 7 [(1, 7)]) ∧
      (core .wide 2 7 [(1, 7)]).mem.read 1 ≠ (core .wide 1 7 [(1, 21001)]).mem.read 1) :=
  ⟨⟨rfl, by decide⟩, by decide, rfl, by decide⟩

theorem witness_AccumulatorIsNotReadByOthers :
    exec (.branch 9) (core .wide 0 5 []) = .next (core .wide 9 5 []) ∧
    exec (.halt 0) (core .wide 3 0 [(3, 43000)]) = .next haltedCore := ⟨rfl, rfl⟩

theorem witness_ProgramsDoNotSeePcOrStatus :
    exec (.load 2) (core .wide 0 0 [(2, 7)]) = .next (core .wide 1 7 [(2, 7)]) := rfl

theorem witness_FaultEntryRecord :
    ¬ inAddr (core .wide 250 0 []).regime (core .wide 250 0 []).pc ∧ inAddr (core .wide 249 0 [(249, -1)]).regime 249 ∧
    (core .wide 249 0 [(249, -1)]).mem.read 249 < 0 ∧ ¬ (core .wide 249 0 []).mem.read 249 < 0 := by decide

theorem witness_FaultsArePrecise :
    step (core .wide 7 0 [(7, 10250)]) = .next faultedCore ∧ (core .wide 7 0 [(7, 10250)]).lifecycle ≠ .faulted ∧
    faultedCore.lifecycle = .faulted := ⟨rfl, by decide, rfl⟩

theorem witness_HaltingIsNotAFault :
    Inv (core .wide 3 0 [(3, 43000)]) ∧ step (core .wide 3 0 [(3, 43000)]) = .next haltedCore ∧ haltedCore.lifecycle = .halted :=
  ⟨core_inv (by decide) (by unfold Memory.InRange; decide) (by decide) (by decide), rfl, rfl⟩

theorem witness_LifecycleTransitions :
    (Steppable (core .wide 3 0 [(3, 43000)]) ∧ step (core .wide 3 0 [(3, 43000)]) = .next haltedCore) ∧
    (Steppable (core .wide 249 0 [(249, 20000)]) ∧
      step (core .wide 249 0 [(249, 20000)]) = .next (haltWith .pcExhausted (core .wide 249 0 [(249, 20000)]))) ∧
    (¬ Steppable haltedCore ∧ step haltedCore = .next haltedCore) :=
  ⟨⟨.inr rfl, rfl⟩, ⟨.inr rfl, rfl⟩, by simp [Steppable, haltedCore], rfl⟩

theorem witness_OnlyResetOrLoadLeavesTerminalStates :
    haltedCore.lifecycle = .halted ∧ hostCall .reset haltedCore = .next State.reset ∧ State.reset.lifecycle ≠ haltedCore.lifecycle ∧
    faultedCore.lifecycle = .faulted ∧ loadCheck .wide 1 [43000] = none ∧ faultedCore.io.request = none :=
  ⟨rfl, rfl, by decide, rfl, by decide, rfl⟩

theorem witness_ProgramCounterMoves :
    step (core .wide 249 0 [(249, 40000)]) = .next (core .wide 0 0 [(249, 40000)]) ∧
    step (core .wide 248 0 [(248, 20000)]) = .next (core .wide 249 0 [(248, 20000)]) := ⟨rfl, rfl⟩

theorem witness_StepKeepsInvariant :
    Inv (core .wide 1 0 [(1, 20001)]) ∧ step (core .wide 1 0 [(1, 20001)]) = .next (core .wide 2 20001 [(1, 20001)]) :=
  ⟨core_inv (by decide) (by unfold Memory.InRange; decide) (by decide) (by decide), rfl⟩

theorem witness_HostKeepsInvariant : Inv faultedCore ∧ hostCall .reset faultedCore = .next State.reset := ⟨faultedCore_inv, rfl⟩

theorem witness_RegimeNeverChanges :
    step (core .narrow 0 0 [(0, 4002)]) = .next (core .narrow 2 0 [(0, 4002)]) ∧
    hostCall .reset (core .narrow 0 0 [(0, 4002)]) = .next (State.resetOf .narrow) := ⟨rfl, rfl⟩

theorem witness_WrittenCellIsWhatIsFetched :
    ((core .wide 1 7 [(1, 21001)]).mem.wf ∧ Steppable (core .wide 1 7 [(1, 21001)]) ∧ inAddr .wide 1 ∧
      step (core .wide 1 7 [(1, 21001)]) = .next (core .wide 2 7 [(1, 7)]) ∧
      decode .wide ((core .wide 1 7 [(1, 21001)]).mem.read 1) = .ok (.store 1)) ∧
    (Steppable (coreWithInput 3 0 [(3, 10003)] [.value 43000]) ∧
      decode .wide ((coreWithInput 3 0 [(3, 10003)] [.value 43000]).mem.read 3) = .ok (.read 3) ∧
      step (coreWithInput 3 0 [(3, 10003)] [.value 43000]) = .next (coreWithInput 4 0 [(3, 43000)] []) ∧
      inWord .wide 43000) :=
  ⟨⟨by decide, .inr rfl, by decide, rfl, rfl⟩, .inr rfl, rfl, rfl, by decide⟩

theorem witness_OneTransactionPerStep :
    step (core .wide 3 0 [(3, 11003)]) = .next (giveOutput 11003 (core .wide 4 0 [(3, 11003)])) ∧
    step (coreWithInput 3 0 [(3, 10003)] [.aborted]) =
      .next (raiseFault .inputAborted .nothing (coreWithInput 3 0 [(3, 10003)] [])) := ⟨rfl, rfl⟩

theorem witness_UnansweredRequestIsStuck :
    (Steppable (core .wide 249 0 [(249, 10000)]) ∧ inAddr .wide 249 ∧
      decode .wide ((core .wide 249 0 [(249, 10000)]).mem.read 249) = .ok (.read 0) ∧
      (core .wide 249 0 [(249, 10000)]).io.input = []) ∧
    (Steppable (hostTakesOutput false (core .wide 0 0 [(0, 11000)])) ∧ inAddr .wide 0 ∧
      decode .wide ((hostTakesOutput false (core .wide 0 0 [(0, 11000)])).mem.read 0) = .ok (.write 0) ∧
      (hostTakesOutput false (core .wide 0 0 [(0, 11000)])).io.outputReady = false) :=
  ⟨⟨.inr rfl, by decide, rfl, rfl⟩, .inr rfl, by decide, rfl, rfl⟩

theorem witness_AnsweredRequestCompletes :
    ((await .input (core .wide 249 0 [(249, 10000)])).lifecycle = .running ∧ inAddr .wide 249 ∧
      decode .wide ((await .input (core .wide 249 0 [(249, 10000)])).mem.read 249) = .ok (.read 0) ∧
      (await .input (core .wide 249 0 [(249, 10000)])).io.input = [] ∧
      (await .input (core .wide 249 0 [(249, 10000)])).io.request = some .input ∧ inWord .wide (-999999) ∧
      (await .input (core .wide 249 0 [(249, 10000)])).mem.wf) ∧
    (decode .wide ((await (.output 11000) (core .wide 0 0 [(0, 11000)])).mem.read 0) = .ok (.write 0) ∧
      (await (.output 11000) (core .wide 0 0 [(0, 11000)])).io.request = some (.output 11000)) :=
  ⟨⟨rfl, by decide, rfl, rfl, rfl, by decide, by decide⟩, rfl, rfl⟩

theorem witness_ResetZeroesMemory : loadCheck (core .wide 0 5 [(249, 5)]).regime 1 [1, 2] = none ∧ [1, 2].length ≤ 2 := by decide

theorem witness_LoadWritesImage :
    (loadImage [7, 0, -9] (core .wide 9 5 [(249, 5)])).1 = none ∧ 2 < [7, 0, -9].length ∧ [7, 0, -9].length ≤ 3 := by decide

theorem witness_FailedLoadChangesNothing :
    (loadImage [1, 1000000] State.reset).1 = some (.formatError 2) ∧
    (loadImage (List.replicate 101 0) (State.resetOf .narrow)).1 = some (.capacityExceeded 101) := by decide

theorem witness_RunEndsOnce :
    ((core .wide 6 0 []).io.request = none ∧ (core .wide 6 0 []).lifecycle = .running) ∧
    (step (core .wide 3 0 [(3, 10020)]) = .next (await .input (core .wide 3 0 [(3, 10020)])) ∧
      (await .input (core .wide 3 0 [(3, 10020)])).io.request ≠ none ∧
      stepResult (await .input (core .wide 3 0 [(3, 10020)])) = none) ∧
    (step (core .wide 6 0 [(6, 40006)]) = .next (core .wide 6 0 [(6, 40006)]) ∧
      stepResult (core .wide 6 0 [(6, 40006)]) = some .running) ∧
    (step (core .wide 3 0 [(3, 43000)]) = .next haltedCore ∧ stepResult haltedCore = some (.halted .haltInstruction)) ∧
    (1 ≤ 2 ∧ runFor 1 (core .wide 3 0 [(3, 43000)]) = .next haltedCore ∧ stepResult haltedCore ≠ some .running ∧
      stepResult haltedCore ≠ none) ∧ ¬ Steppable haltedCore :=
  ⟨⟨rfl, rfl⟩, ⟨rfl, by decide, rfl⟩, ⟨rfl, rfl⟩, ⟨rfl, rfl⟩, ⟨by decide, rfl, by decide, by decide⟩, by simp [Steppable, haltedCore]⟩

theorem witness_StatusViewFields : faultedCore.io.request = none ∧ haltedCore.io.request = none := ⟨rfl, rfl⟩

/-- A record of each kind of detail, the empty record, the fields a record can lack, and a core inside its step. -/
theorem witness_HostActsAtStepBoundary :
    (State.reset.io.request = none ∧ State.reset.fault = none ∧ inAddr .wide 249) ∧
    (faultedCore.io.request = none ∧ faultedCore.fault = some ⟨.invalidOperand, 7, some 10250, some 10, some 250, .operand 250⟩) ∧
    (raiseFault .programCounterOutOfBounds .nothing (core .wide 250 0 [])).fault =
      some ⟨.programCounterOutOfBounds, 250, none, none, none, .nothing⟩ ∧
    (raiseFault .overflow (.operation .multiply) (core .wide 0 1000 [(0, 33050), (50, 1000)])).fault =
      some ⟨.overflow, 0, some 33050, some 33, some 50, .operation .multiply⟩ ∧
    (raiseFault .inputOutOfRange (.value 1000000) (core .wide 3 12 [(3, 10020)])).fault =
      some ⟨.inputOutOfRange, 3, some 10020, some 10, some 20, .value 1000000⟩ ∧
    (await .input (core .wide 3 12 [(3, 10020)])).io.request ≠ none :=
  ⟨⟨rfl, rfl, by decide⟩, ⟨rfl, rfl⟩, rfl, rfl, rfl, by decide⟩

theorem witness_AcceptedLineValue :
    isMagnitude .wide "999999".toList = true ∧ isMagnitude .narrow "0000".toList = true ∧ inWord .wide (-999999) ∧
    State.reset.io.request = none := by decide

theorem witness_TextLoaderChecksEverything :
    State.reset.io.request = none ∧ parseText .wide "+010002".toList = .ok [10002] ∧
    parseText .wide "+12345".toList = .error (.formatError 1 "+12345".toList) ∧
    (await .input (core .wide 3 0 [(3, 10020)])).io.request ≠ none :=
  ⟨rfl, rfl, rfl, by decide⟩

end Sys2Proof.Tests
end

/-! ## Scope: division rounded toward zero, the realisation's widths, the regime (00_scope.md) -/

section
/-! The largest split fields, and the bound of each realised value by its width. -/

namespace Sys2Proof

/-- The word range is inside the signed range of `WORD_BITS` bits (00_scope.md R10). -/
theorem Regime.maxWord_lt_two_pow (r : Regime) : r.maxWord < 2 ^ (r.wordBits - 1) := by cases r <;> decide

theorem Regime.wordBits_pos (r : Regime) : 0 < r.wordBits := by cases r <;> decide

theorem Regime.maxAddress_lt_two_pow (r : Regime) : r.maxAddress < 2 ^ r.addrBits := by cases r <;> decide

theorem Regime.opcodeMax_lt_two_pow (r : Regime) : r.opcodeMax < 2 ^ r.fieldBits := by cases r <;> decide

theorem Regime.operandMax_lt_two_pow (r : Regime) : r.operandMax < 2 ^ r.fieldBits := by cases r <;> decide

theorem splitOpcode_le_opcodeMax {r : Regime} {w : Int} (h : w ≤ r.maxWord) : splitOpcode r w ≤ r.opcodeMax :=
  Nat.div_le_div_right (Int.toNat_le_toNat h)

theorem splitOperand_le_operandMax (r : Regime) (w : Int) : splitOperand r w ≤ r.operandMax :=
  Nat.le_pred_of_lt (Nat.mod_lt _ r.scale_pos)

end Sys2Proof

namespace Sys2Proof.Machine

theorem physicalWord_toInt {r : Regime} {v : Int} (h : inWord r v) : (physicalWord r v).toInt = v := by
  obtain ⟨hmin, hmax⟩ := h
  rw [r.minWord_eq] at hmin
  have hbound := r.maxWord_lt_two_pow
  exact BitVec.toInt_ofInt_eq_self r.wordBits_pos (by omega) (by omega)

theorem physicalPc_toNat {r : Regime} {a : Nat} (h : inAddr r a) : (physicalPc r a).toNat = a :=
  (BitVec.toNat_ofNat a _).trans (Nat.mod_eq_of_lt (lt_of_le_of_lt h r.maxAddress_lt_two_pow))

theorem physicalField_toNat {r : Regime} {n : Nat} (h : n < 2 ^ r.fieldBits) : (physicalField r n).toNat = n :=
  (BitVec.toNat_ofNat n _).trans (Nat.mod_eq_of_lt h)

/-- Settles O31: each value is below the bound that its width sets, so no bit of it is lost. -/
theorem physicalWidthsSuffice : Obligations.PhysicalWidthsSuffice := fun r =>
  ⟨fun _ hv => physicalWord_toInt hv,
    fun _ ha => physicalPc_toNat ha,
    fun w _ hmax =>
      ⟨physicalField_toNat (lt_of_le_of_lt (splitOpcode_le_opcodeMax hmax) r.opcodeMax_lt_two_pow),
        physicalField_toNat (lt_of_le_of_lt (splitOperand_le_operandMax r w) r.operandMax_lt_two_pow)⟩⟩

end Sys2Proof.Machine
end

section
/-! The sign of a quotient (00_scope.md R13). -/

namespace Sys2Proof.Machine

@[simp] theorem tdiv_zero_left (b : Int) : tdiv 0 b = 0 := by simp [tdiv]

theorem tdiv_nonneg_of_neg_iff_neg {a b : Int} (h : a < 0 ↔ b < 0) : 0 ≤ tdiv a b := by
  rw [tdiv, if_pos (propext h)]
  exact Int.natCast_nonneg _

theorem tdiv_nonpos_of_not_neg_iff_neg {a b : Int} (h : ¬ (a < 0 ↔ b < 0)) : tdiv a b ≤ 0 := by
  rw [tdiv, if_neg fun e => h (iff_of_eq e)]
  exact Int.neg_nonpos_of_nonneg (Int.natCast_nonneg _)

/-- A non-zero quotient is negative exactly when the signs differ: `tdiv` tests `a < 0` alone, so a zero dividend counts as
positive there, and its quotient is 0. -/
theorem tdiv_neg_iff {a b : Int} (hb : b ≠ 0) :
    tdiv a b < 0 ↔ ((a < 0 ∧ 0 < b) ∨ (0 < a ∧ b < 0)) ∧ tdiv a b ≠ 0 := by
  by_cases hsign : a < 0 ↔ b < 0
  · have hq := tdiv_nonneg_of_neg_iff_neg hsign
    omega
  · have hq := tdiv_nonpos_of_not_neg_iff_neg hsign
    rcases eq_or_ne a 0 with rfl | ha
    · simp
    · omega

/-- Settles O28: the magnitude is `tdiv_natAbs`, the sign `tdiv_neg_iff`. -/
theorem truncatingDivision : Obligations.TruncatingDivision :=
  ⟨fun a b hb => ⟨tdiv_natAbs a b, tdiv_neg_iff hb⟩, rfl⟩

end Sys2Proof.Machine
end

section
/-! Every step and every call of the host keeps the regime (00_scope.md R7). -/

namespace Sys2Proof.Machine

@[simp] theorem decodeFault_regime (e : DecodeError) (s : State) : (decodeFault e s).regime = s.regime := by
  obtain ⟨k, d, h⟩ := decodeFault_eq e s
  rw [h, raiseFault_regime]

theorem StepEffect.regime_eq {s t : State} (h : StepEffect s t) : t.regime = s.regime := by
  cases h with
  | terminal => rfl
  | pcOutOfBounds => simp
  | undecodable => simp
  | executed _ _ _ _ _ he => simpa using he.regime_eq

theorem step_regime {s t : State} (h : step s = .next t) : t.regime = s.regime := (step_next h).regime_eq

theorem runFor_regime {n : Nat} {s t : State} (h : runFor n s = .next t) : t.regime = s.regime :=
  runFor_keeps (P := fun u => u.regime = s.regime) (fun _ _ hu hs => (step_regime hs).trans hu) rfl h

@[simp] theorem loadImage_regime (image : List Int) (s : State) : (loadImage image s).2.regime = s.regime := by
  rcases loadImage_cases image s with ⟨e, -, h⟩ | ⟨-, h⟩ <;> simp [h]

theorem HostCall.perform_regime {c : HostCall} {s t : State} (h : c.perform s = .next t) : t.regime = s.regime := by
  cases c with
  | reset => cases h; exact resetCore_regime s
  | load image => cases h; exact loadImage_regime image s
  | step => exact step_regime h
  | run cap => exact runFor_regime h

/-- Settles O47: by what a step can do, and by cases on the call, a run being steps only. -/
theorem regimeNeverChanges : Obligations.RegimeNeverChanges := fun _ _ =>
  ⟨step_regime, fun _ h => HostCall.perform_regime (hostCall_next h).2⟩

end Sys2Proof.Machine
end

/-! ## State: ACC, PC, STATE, the views and the invariant (10_state.md) -/

section
/-! The invariant: each operation of a cycle keeps it, from a Running core with no request in progress. -/

namespace Sys2Proof

/-- The instructions that use the I/O channel (41_io.md R81, R82). -/
def Instr.usesChannel : Instr → Bool
  | .read _ => true
  | .write _ => true
  | _ => false

theorem inWord_iff_natAbs {r : Regime} {v : Int} : inWord r v ↔ (v.natAbs : Int) ≤ r.maxWord := by
  rw [inWord, r.minWord_eq]
  omega

end Sys2Proof

namespace Sys2Proof.Machine

/-- A quotient is no larger than its dividend, so it needs no range check (43_arithmetic.md R91). -/
theorem inWord_tdiv {r : Regime} {a : Int} (h : inWord r a) (b : Int) : inWord r (tdiv a b) := by
  rw [inWord_iff_natAbs] at h ⊢
  rw [tdiv_natAbs]
  exact le_trans (Int.ofNat_le.2 (Nat.div_le_self _ _)) h

theorem requestMatches_of_none {s : State} (h : s.io.request = none) : RequestMatches s := by
  rw [RequestMatches, h]
  trivial

/-- A request in progress is READ's or WRITE's. -/
theorem RequestMatches.usesChannel {s : State} {i : Instr} (h : RequestMatches s) (hr : s.io.request ≠ none)
    (hd : decode s.regime (s.mem.read s.pc) = .ok i) : i.usesChannel = true := by
  unfold RequestMatches at h
  split at h
  · next hq => exact absurd hq hr
  · obtain ⟨a, ha⟩ := h
    rw [ha] at hd
    cases hd
    rfl
  · obtain ⟨a, ha, -⟩ := h
    rw [ha] at hd
    cases hd
    rfl

section
variable {s : State} (h : Inv s)
include h

theorem Inv.haltCause_of_steppable (hs : Steppable s) : s.haltCause = .notHalted := by
  by_contra hc
  have := h.haltCauseIff.1 hc
  simp [Steppable, this] at hs

theorem Inv.fault_of_steppable (hs : Steppable s) : s.fault = none := by
  by_contra hf
  have := h.faultIff.1 (Option.isSome_iff_ne_none.2 hf)
  simp [Steppable, this] at hs

/-- The core that runs the cycle of a step (40_execution_cycle.md R64, R65). -/
theorem Inv.setLifecycle_running (hs : Steppable s) : Inv (s.setLifecycle .running) where
  memWf := h.memWf
  memInRange := h.memInRange
  accInWord := h.accInWord
  pcInAddr := h.pcInAddr
  haltCauseIff := by simp [h.haltCause_of_steppable hs]
  faultIff := by simp [h.fault_of_steppable hs]
  faultRecords := h.faultRecords
  requestRunning := fun _ => rfl
  requestMatches := h.requestMatches

end

/-- The invariant of a Running core that is asking the host nothing, where it is each field's own. -/
structure InCycle (s : State) : Prop where
  memWf : s.mem.wf
  memInRange : s.mem.InRange s.regime
  accInWord : inWord s.regime s.acc
  pcInAddr : inAddr s.regime s.pc
  running : s.lifecycle = .running
  notHalted : s.haltCause = .notHalted
  noFault : s.fault = none
  noRequest : s.io.request = none

section
variable {s : State} (h : Inv s) (hrun : s.lifecycle = .running)
include h hrun

/-- Once the channel has no request, a Running core of the invariant is in a cycle. -/
theorem Inv.inCycle_setIo {c : IoChannel} (hc : c.request = none) : InCycle (s.setIo c) where
  memWf := h.memWf
  memInRange := h.memInRange
  accInWord := h.accInWord
  pcInAddr := h.pcInAddr
  running := hrun
  notHalted := h.haltCause_of_steppable (.inr hrun)
  noFault := h.fault_of_steppable (.inr hrun)
  noRequest := hc

theorem Inv.inCycle (hr : s.io.request = none) : InCycle s := h.inCycle_setIo hrun hr

theorem Inv.inCycle_consumeInput (rest : List InputAnswer) : InCycle (consumeInput rest s) := h.inCycle_setIo hrun rfl

theorem Inv.inCycle_giveOutput (v : Int) : InCycle (giveOutput v s) := h.inCycle_setIo hrun rfl

/-- No request is in progress where the fetched instruction does not use the channel. -/
theorem Inv.inCycle_of_decode {i : Instr} (hd : decode s.regime (s.mem.read s.pc) = .ok i) (hi : i.usesChannel = false) :
    InCycle s := by
  refine h.inCycle hrun ?_
  by_contra hr
  have := h.requestMatches.usesChannel hr hd
  simp [hi] at this

/-- Nor where the fetched word is no instruction. -/
theorem Inv.inCycle_of_undecodable {e : DecodeError} (hd : decode s.regime (s.mem.read s.pc) = .error e) : InCycle s := by
  refine h.inCycle hrun ?_
  have hm := h.requestMatches
  unfold RequestMatches at hm
  split at hm
  · assumption
  · simp [hd] at hm
  · simp [hd] at hm

/-- Waiting for the host keeps the invariant when the request is the fetched instruction's own. -/
theorem Inv.await {q : IoRequest} (hq : RequestMatches (await q s)) : Inv (await q s) :=
  { h with requestRunning := fun _ => hrun, requestMatches := hq }

end

section
variable {s : State} (h : InCycle s)
include h

theorem InCycle.inv : Inv s where
  memWf := h.memWf
  memInRange := h.memInRange
  accInWord := h.accInWord
  pcInAddr := h.pcInAddr
  haltCauseIff := by simp [h.notHalted, h.running]
  faultIff := by simp [h.noFault, h.running]
  faultRecords := by simp [h.noFault]
  requestRunning := fun _ => h.running
  requestMatches := requestMatches_of_none h.noRequest

theorem InCycle.setAcc {v : Int} (hv : inWord s.regime v) : InCycle (s.setAcc v) := { h with accInWord := hv }

theorem InCycle.setPc {a : Nat} (ha : inAddr s.regime a) : InCycle (s.setPc a) := { h with pcInAddr := ha }

theorem InCycle.writeCell {a : Nat} {v : Int} (ha : inAddr s.regime a) (hv : inWord s.regime v) :
    InCycle (s.setMem (s.mem.write a v)) :=
  { h with memWf := Memory.wf_write h.memWf a v, memInRange := h.memInRange.write ha hv }

theorem InCycle.haltWith {c : HaltCause} (hc : c ≠ .notHalted) : Inv (haltWith c s) :=
  { h.inv with
    haltCauseIff := by simp [hc]
    faultIff := by simp [h.noFault]
    requestRunning := fun hr => absurd h.noRequest hr
    requestMatches := requestMatches_of_none h.noRequest }

theorem InCycle.raiseFault (k : FaultKind) (d : FaultDetail) : Inv (raiseFault k d s) :=
  { h.inv with
    haltCauseIff := by simp [h.notHalted]
    faultIff := by simp
    faultRecords := by
      intro f hf
      cases hf
      rfl
    requestRunning := fun hr => absurd h.noRequest hr
    requestMatches := requestMatches_of_none h.noRequest }

theorem InCycle.nextSeq : Inv (nextSeq s) := by
  rcases nextSeq_cases s with ⟨hle, e⟩ | ⟨-, e⟩ <;> rw [e]
  · exact (h.setPc hle).inv
  · exact h.haltWith (by decide)

end

/-- Executing the fetched instruction keeps the invariant. -/
theorem ExecEffect.inv {s t : State} {i : Instr} (he : ExecEffect s i t) (h : Inv s) (hrun : s.lifecycle = .running)
    (hd : decode s.regime (s.mem.read s.pc) = .ok i) : Inv t := by
  obtain ⟨-, -, -, ha⟩ := decode_ok hd
  have calm : i.usesChannel = false → InCycle s := h.inCycle_of_decode hrun hd
  cases he with
  | load a => exact ((calm rfl).setAcc (h.memInRange.read a)).nextSeq
  | store a => exact ((calm rfl).writeCell ha h.accInWord).nextSeq
  | add a hv => exact ((calm rfl).setAcc hv).nextSeq
  | subtract a hv => exact ((calm rfl).setAcc hv).nextSeq
  | multiply a hv => exact ((calm rfl).setAcc hv).nextSeq
  | divide a => exact ((calm rfl).setAcc (inWord_tdiv h.accInWord _)).nextSeq
  | addOverflow | subtractOverflow | multiplyOverflow | divideByZero => exact (calm rfl).raiseFault _ _
  | read a v rest hin hv => exact ((h.inCycle_consumeInput hrun rest).writeCell ha hv).nextSeq
  | readOutOfRange a v rest | readAborted a rest => exact (h.inCycle_consumeInput hrun rest).raiseFault _ _
  | readWaits a => exact h.await hrun ⟨a, hd⟩
  | write a => exact (h.inCycle_giveOutput hrun _).nextSeq
  | writeWaits a => exact h.await hrun ⟨a, hd, rfl⟩
  | branch | branchneg | branchzero => exact ((calm rfl).setPc ha).inv
  | branchnegNot | branchzeroNot => exact (calm rfl).nextSeq
  | halt a => exact (calm rfl).haltWith (by decide)

theorem StepEffect.inv {s t : State} (he : StepEffect s t) (h : Inv s) : Inv t := by
  cases he with
  | terminal => exact h
  | pcOutOfBounds _ hpc => exact absurd h.pcInAddr hpc
  | undecodable hs _ e hd =>
    obtain ⟨k, d, hk⟩ := decodeFault_eq e (s.setLifecycle .running)
    rw [hk]
    exact ((h.setLifecycle_running hs).inCycle_of_undecodable rfl hd).raiseFault k d
  | executed hs _ i hd _ he => exact he.inv (h.setLifecycle_running hs) rfl hd

/-- Settles O45: by what a step can do, each operation of a cycle keeping the invariant. -/
theorem stepKeepsInvariant : Obligations.StepKeepsInvariant := fun _ _ h hs => (step_next hs).inv h

end Sys2Proof.Machine
end

section
/-! Who writes ACC and memory, and who does not read ACC, PC or the status (10_state.md R16, R33). -/

namespace Sys2Proof

/-- The instructions that write ACC (10_state.md R16). -/
def Instr.WritesAcc (i : Instr) : Prop :=
  ∃ a, i = .load a ∨ i = .add a ∨ i = .subtract a ∨ i = .divide a ∨ i = .multiply a

end Sys2Proof

namespace Sys2Proof.Machine

@[simp] theorem decodeFault_mem (e : DecodeError) (s : State) : (decodeFault e s).mem = s.mem := by cases e <;> rfl

@[simp] theorem decodeFault_acc (e : DecodeError) (s : State) : (decodeFault e s).acc = s.acc := by cases e <;> rfl

@[simp] theorem decodeFault_pc (e : DecodeError) (s : State) : (decodeFault e s).pc = s.pc := by cases e <;> rfl

@[simp] theorem decodeFault_lifecycle (e : DecodeError) (s : State) : (decodeFault e s).lifecycle = .faulted := by
  cases e <;> rfl

theorem ExecEffect.acc_cases {s t : State} {i : Instr} (h : ExecEffect s i t) : t.acc = s.acc ∨ i.WritesAcc := by
  cases h with
  | load a | add a | subtract a | divide a | multiply a => exact .inr ⟨a, by simp⟩
  | _ => exact .inl (by simp)

/-- An instruction writes no cell but that of its operand, and only READ and STORE write it (20_memory.md R43). -/
theorem ExecEffect.read_mem_cases {s t : State} {i : Instr} (h : ExecEffect s i t) (hwf : s.mem.wf) (b : Nat) :
    t.mem.read b = s.mem.read b ∨ i = .read b ∨ i = .store b := by
  cases h with
  | store a | read a =>
    rcases eq_or_ne b a with rfl | hb
    · exact .inr (by simp)
    · exact .inl (by simp [Memory.read_write hwf, hb])
  | _ => exact .inl (by simp)

theorem StepEffect.acc_cases {s t : State} (h : StepEffect s t) :
    t.acc = s.acc ∨ ∃ i, decode s.regime (s.mem.read s.pc) = .ok i ∧ i.WritesAcc := by
  cases h with
  | terminal => exact .inl rfl
  | pcOutOfBounds => exact .inl rfl
  | undecodable => exact .inl (by simp)
  | executed _ _ i hd _ he => exact he.acc_cases.imp id fun hi => ⟨i, hd, hi⟩

theorem StepEffect.read_mem_cases {s t : State} (h : StepEffect s t) (hwf : s.mem.wf) (b : Nat) :
    t.mem.read b = s.mem.read b ∨ decode s.regime (s.mem.read s.pc) = .ok (.read b) ∨
      decode s.regime (s.mem.read s.pc) = .ok (.store b) := by
  cases h with
  | terminal => exact .inl rfl
  | pcOutOfBounds => exact .inl rfl
  | undecodable => exact .inl (by simp)
  | executed _ _ i hd _ he =>
    rcases he.read_mem_cases hwf b with h | rfl | rfl
    · exact .inl h
    · exact .inr (.inl hd)
    · exact .inr (.inr hd)

/-- Settles O35: by what a step can do to ACC and to one cell. -/
theorem onlyTheseInstructionsWrite : Obligations.OnlyTheseInstructionsWrite := by
  refine ⟨fun s t h hacc => ?_, fun s t b hwf h hmem => (step_next h).read_mem_cases hwf b |>.resolve_left hmem⟩
  obtain ⟨i, hd, a, hi⟩ := (step_next h).acc_cases.resolve_left hacc
  refine ⟨a, ?_⟩
  rcases hi with rfl | rfl | rfl | rfl | rfl <;> simp [hd]

/-- Two answers agree up to `R`: a next state of the first is matched by one of the second. -/
def NextRel (R : State → State → Prop) (x y : Host.Outcome State Fault Refusal) : Prop :=
  ∀ t, x = .next t → ∃ u, y = .next u ∧ R t u

section
variable {R : State → State → Prop}

theorem NextRel.next {t u : State} (h : R t u) : NextRel R (.next t) (.next u) := by
  intro t' ht
  cases ht
  exact ⟨u, rfl, h⟩

variable {s s' : State} (hr : s'.regime = s.regime) {a : Nat}
include hr

theorem NextRel.readOperand (hm : s'.mem = s.mem) {k k' : Int → Host.Outcome State Fault Refusal}
    (hk : NextRel R (k (s.mem.read a)) (k' (s.mem.read a))) : NextRel R (readOperand a s k) (readOperand a s' k') := by
  by_cases ha : inAddr s.regime a
  · rw [readOperand_of_inAddr ha, readOperand_of_inAddr (hr ▸ ha), hm]
    exact hk
  · rw [readOperand_of_not_inAddr ha]
    rintro t ⟨⟩

theorem NextRel.memWrite {v : Int} {k k' : State → Host.Outcome State Fault Refusal}
    (hk : NextRel R (k (s.setMem (s.mem.write a v))) (k' (s'.setMem (s'.mem.write a v)))) :
    NextRel R (andThen (memWrite a v s) k) (andThen (memWrite a v s') k') := by
  by_cases ha : inAddr s.regime a
  · rw [memWrite_of_inAddr ha, memWrite_of_inAddr (hr ▸ ha)]
    exact hk
  · rw [memWrite_of_not_inAddr ha]
    rintro t ⟨⟩

end

/-- READ with an accepted answer, whatever its operand. -/
theorem exec_read_accepted {a : Nat} {s : State} {v : Int} {rest : List InputAnswer}
    (hin : s.io.input = .value v :: rest) (hv : inWord s.regime v) :
    exec (.read a) s = andThen (memWrite a v (consumeInput rest s)) fun t => .next (nextSeq t) := by
  simp only [exec, execRead, hin, if_pos hv]

/-- STORE, whatever its operand. -/
theorem exec_store_eq_andThen (a : Nat) (s : State) :
    exec (.store a) s = andThen (memWrite a s.acc s) fun t => .next (nextSeq t) := rfl

theorem nextSeq_setAcc (s : State) (x : Int) : nextSeq (s.setAcc x) = (nextSeq s).setAcc x := by
  rcases nextSeq_cases s with ⟨h, e⟩ | ⟨h, e⟩ <;> rw [e]
  · exact nextSeq_of_le h
  · exact nextSeq_of_not_le (not_le.2 h)

/-- The second state is the first but for ACC, which is `x`. -/
def AccReplaced (x : Int) (s s' : State) : Prop := s' = s.setAcc x

theorem AccReplaced.nextSeq {x : Int} {s s' : State} (h : AccReplaced x s s') : AccReplaced x (nextSeq s) (nextSeq s') :=
  (congrArg _ h).trans (nextSeq_setAcc s x)

theorem exec_read_accReplaced (a : Nat) (s : State) (x : Int) :
    NextRel (AccReplaced x) (exec (.read a) s) (exec (.read a) (s.setAcc x)) := by
  rcases hin : s.io.input with _ | ⟨v | _, rest⟩
  · rw [exec_read_nil hin, exec_read_nil (s := s.setAcc x) hin]
    exact .next rfl
  · by_cases hv : inWord s.regime v
    · rw [exec_read_accepted hin hv, exec_read_accepted (s := s.setAcc x) hin hv]
      refine .memWrite (s := consumeInput rest s) (s' := consumeInput rest (s.setAcc x)) rfl ?_
      exact .next (AccReplaced.nextSeq rfl)
    · rw [exec_read_outOfRange hin hv, exec_read_outOfRange (s := s.setAcc x) hin hv]
      exact .next rfl
  · rw [exec_read_aborted hin, exec_read_aborted (s := s.setAcc x) hin]
    exact .next rfl

theorem exec_write_accReplaced (a : Nat) (s : State) (x : Int) :
    NextRel (AccReplaced x) (exec (.write a) s) (exec (.write a) (s.setAcc x)) := by
  refine .readOperand rfl rfl ?_
  rcases hr : s.io.outputReady with _ | _ <;> simp only [State.setAcc_io, hr]
  · exact .next rfl
  · exact .next (AccReplaced.nextSeq rfl)

/-- Settles O36: the four forms commute with a write of ACC, and LOAD's own write of it hides one before. -/
theorem accumulatorIsNotReadByOthers : Obligations.AccumulatorIsNotReadByOthers := by
  refine fun s a x i => ⟨fun hi t ht => ?_, rfl⟩
  have key : NextRel (AccReplaced x) (exec i s) (exec i (s.setAcc x)) := by
    rcases hi with rfl | rfl | rfl | rfl
    · exact exec_read_accReplaced a s x
    · exact exec_write_accReplaced a s x
    · exact .next rfl
    · exact .next rfl
  obtain ⟨u, hu, rfl⟩ := key t ht
  exact hu

/-- Equality of all a program works with: the regime, ACC, memory and the channel, not PC and the status (10_state.md R33). -/
structure SameData (s u : State) : Prop where
  regime : u.regime = s.regime
  acc : u.acc = s.acc
  mem : u.mem = s.mem
  io : u.io = s.io

section
variable {s u : State} (h : SameData s u)
include h

theorem SameData.setAcc (v : Int) : SameData (s.setAcc v) (u.setAcc v) := ⟨h.regime, rfl, h.mem, h.io⟩

theorem SameData.setMem (m : Memory) : SameData (s.setMem m) (u.setMem m) := ⟨h.regime, h.acc, rfl, h.io⟩

theorem SameData.setIo (c : IoChannel) : SameData (s.setIo c) (u.setIo c) := ⟨h.regime, h.acc, h.mem, rfl⟩

theorem SameData.consumeInput (rest : List InputAnswer) : SameData (consumeInput rest s) (consumeInput rest u) := by
  rw [Machine.consumeInput, Machine.consumeInput, h.io]
  exact h.setIo _

theorem SameData.giveOutput (v : Int) : SameData (giveOutput v s) (giveOutput v u) := by
  rw [Machine.giveOutput, Machine.giveOutput, h.io]
  exact h.setIo _

theorem SameData.await (q : IoRequest) : SameData (await q s) (await q u) := by
  rw [Machine.await, Machine.await, h.io]
  exact h.setIo _

theorem SameData.writeCell (a : Nat) (v : Int) : SameData (s.setMem (s.mem.write a v)) (u.setMem (u.mem.write a v)) := by
  rw [h.mem]
  exact h.setMem _

theorem SameData.setPc (a : Nat) : SameData (s.setPc a) (u.setPc a) := ⟨h.regime, h.acc, h.mem, h.io⟩

theorem SameData.haltWith (c : HaltCause) : SameData (haltWith c s) (haltWith c u) := ⟨h.regime, h.acc, h.mem, h.io⟩

theorem SameData.raiseFault (k : FaultKind) (d : FaultDetail) : SameData (raiseFault k d s) (raiseFault k d u) :=
  ⟨h.regime, h.acc, h.mem, h.io⟩

theorem SameData.nextSeq : SameData (nextSeq s) (nextSeq u) :=
  ⟨by simp [h.regime], by simp [h.acc], by simp [h.mem], by simp [h.io]⟩

theorem SameData.commitChecked (op : ArithOp) (c : Int) : SameData (commitChecked op c s) (commitChecked op c u) := by
  by_cases hc : inWord s.regime c
  · rw [commitChecked_of_inWord hc, commitChecked_of_inWord (h.regime ▸ hc)]
    exact (h.setAcc c).nextSeq
  · rw [commitChecked_of_not_inWord hc, commitChecked_of_not_inWord (h.regime ▸ hc)]
    exact h.raiseFault _ _

theorem SameData.exec_read (a : Nat) : NextRel SameData (exec (.read a) s) (exec (.read a) u) := by
  rcases hin : s.io.input with _ | ⟨v | _, rest⟩
  · rw [exec_read_nil hin, exec_read_nil (h.io ▸ hin)]
    exact .next (h.await _)
  · by_cases hv : inWord s.regime v
    · rw [exec_read_accepted hin hv, exec_read_accepted (h.io ▸ hin) (h.regime ▸ hv)]
      exact .memWrite (h.consumeInput rest).regime (.next ((h.consumeInput rest).writeCell a v).nextSeq)
    · rw [exec_read_outOfRange hin hv, exec_read_outOfRange (h.io ▸ hin) (h.regime ▸ hv)]
      exact .next ((h.consumeInput rest).raiseFault _ _)
  · rw [exec_read_aborted hin, exec_read_aborted (h.io ▸ hin)]
    exact .next ((h.consumeInput rest).raiseFault _ _)

/-- No instruction reads PC or the status into ACC, memory or the channel. -/
theorem SameData.exec (i : Instr) : NextRel SameData (exec i s) (exec i u) := by
  cases i with
  | read a => exact h.exec_read a
  | write a =>
    refine .readOperand h.regime h.mem ?_
    rw [h.io]
    split
    · exact .next (h.giveOutput _).nextSeq
    · exact .next (h.await _)
  | load a => exact .readOperand h.regime h.mem (.next (h.setAcc _).nextSeq)
  | store a =>
    rw [exec_store_eq_andThen, exec_store_eq_andThen, h.acc]
    exact .memWrite h.regime (.next (h.writeCell a s.acc).nextSeq)
  | add a | subtract a | multiply a =>
    refine .readOperand h.regime h.mem (.next ?_)
    rw [h.acc]
    exact h.commitChecked _ _
  | divide a =>
    refine .readOperand h.regime h.mem ?_
    rw [h.acc]
    split
    · exact .next (h.raiseFault _ _)
    · exact .next (h.setAcc _).nextSeq
  | branch a => exact .next (h.setPc a)
  | branchneg a =>
    rw [exec_branchneg, exec_branchneg, h.acc]
    split
    · exact .next (h.setPc a)
    · exact .next h.nextSeq
  | branchzero a =>
    rw [exec_branchzero, exec_branchzero, h.acc]
    split
    · exact .next (h.setPc a)
    · exact .next h.nextSeq
  | halt a => exact .next (h.haltWith _)

end

/-- Settles O37: two states with the same data execute to states with the same data. -/
theorem programsDoNotSeePcOrStatus : Obligations.ProgramsDoNotSeePcOrStatus := by
  intro s t i p l c f ht
  have same : SameData s { s with pc := p, lifecycle := l, haltCause := c, fault := f } := ⟨rfl, rfl, rfl, rfl⟩
  obtain ⟨u, hu, htu⟩ := same.exec i t ht
  exact ⟨u, hu, htu.acc, htu.mem, htu.io⟩

end Sys2Proof.Machine
end

section
/-! How STATE and PC move (10_state.md R19 to R26), and what leaves a terminal state (R24). -/

namespace Sys2Proof.Machine

/-- What an instruction does to PC and STATE: a sequential advance or a fault entry from a state with the same PC and STATE,
waiting, a jump, or HALT's end. -/
inductive ControlEffect (s : State) : Instr → State → Prop where
  | sequential {i : Instr} (hi : ∀ a, i ≠ .halt a) (u : State) (hr : u.regime = s.regime) (hpc : u.pc = s.pc)
    (hl : u.lifecycle = s.lifecycle) : ControlEffect s i (nextSeq u)
  | faults {i : Instr} (k : FaultKind) (d : FaultDetail) (u : State) (hpc : u.pc = s.pc) :
    ControlEffect s i (raiseFault k d u)
  | waits {i : Instr} (q : IoRequest) : ControlEffect s i (await q s)
  | jumps {i : Instr} (a : Nat) (hi : i = .branch a ∨ (i = .branchneg a ∧ s.acc < 0) ∨ (i = .branchzero a ∧ s.acc = 0)) :
    ControlEffect s i (s.setPc a)
  | halts (a : Nat) : ControlEffect s (.halt a) (haltWith .haltInstruction s)

theorem ExecEffect.control {s t : State} {i : Instr} (h : ExecEffect s i t) : ControlEffect s i t := by
  cases h with
  | addOverflow | subtractOverflow | multiplyOverflow | divideByZero | readOutOfRange | readAborted =>
    exact .faults _ _ _ rfl
  | readWaits | writeWaits => exact .waits _
  | branch a => exact .jumps a (.inl rfl)
  | branchneg a hn => exact .jumps a (.inr (.inl ⟨rfl, hn⟩))
  | branchzero a hz => exact .jumps a (.inr (.inr ⟨rfl, hz⟩))
  | halt a => exact .halts a
  | _ => exact .sequential (fun _ => by simp) _ rfl rfl rfl

theorem nextSeq_pc_cases (s : State) :
    (nextSeq s).pc = s.pc ∨ ((nextSeq s).pc = s.pc + 1 ∧ (nextSeq s).pc ≤ s.regime.maxAddress) := by
  rcases nextSeq_cases s with ⟨hle, e⟩ | ⟨-, e⟩ <;> rw [e]
  · exact .inr ⟨rfl, hle⟩
  · exact .inl rfl

/-- A sequential advance that halts has run off the end of memory (40_execution_cycle.md R70). -/
theorem nextSeq_halted {s : State} (hs : s.lifecycle ≠ .halted) (h : (nextSeq s).lifecycle = .halted) :
    s.regime.maxAddress ≤ s.pc ∧ (nextSeq s).haltCause = .pcExhausted := by
  rcases nextSeq_cases s with ⟨-, e⟩ | ⟨hlt, e⟩ <;> rw [e] at h ⊢
  · exact absurd h hs
  · exact ⟨Nat.le_of_lt_succ hlt, rfl⟩

section
variable {s t : State} {i : Instr} (h : ControlEffect s i t)
include h

theorem ControlEffect.pc_cases :
    t.pc = s.pc ∨ (t.pc = s.pc + 1 ∧ t.pc ≤ s.regime.maxAddress) ∨
      (i = .branch t.pc ∨ (i = .branchneg t.pc ∧ s.acc < 0) ∨ (i = .branchzero t.pc ∧ s.acc = 0)) := by
  cases h with
  | sequential _ u hr hpc =>
    rw [← hr, ← hpc]
    exact (nextSeq_pc_cases u).imp id .inl
  | faults _ _ _ hpc => exact .inl hpc
  | waits => exact .inl rfl
  | jumps a hi => exact .inr (.inr hi)
  | halts => exact .inl rfl

/-- No instruction makes a core Ready (10_state.md R23). -/
theorem ControlEffect.lifecycle_ne_ready (hs : s.lifecycle ≠ .ready) : t.lifecycle ≠ .ready := by
  cases h with
  | sequential _ u _ _ hl => exact nextSeq_lifecycle_ne (hl ▸ hs) (by decide)
  | faults => simp
  | waits => exact hs
  | jumps => exact hs
  | halts => simp

/-- The two ways to halt (10_state.md R26). -/
theorem ControlEffect.halted_cases (hs : s.lifecycle ≠ .halted) (ht : t.lifecycle = .halted) :
    ((∃ a, i = .halt a) ∧ t.haltCause = .haltInstruction) ∨
      (s.regime.maxAddress ≤ s.pc ∧ t.haltCause = .pcExhausted ∧ ∀ a, i ≠ .halt a) := by
  cases h with
  | sequential hi u hr hpc hl =>
    obtain ⟨hmax, hcause⟩ := nextSeq_halted (hl ▸ hs) ht
    exact .inr ⟨hr ▸ hpc ▸ hmax, hcause, hi⟩
  | faults => cases ht
  | waits => exact absurd ht hs
  | jumps => exact absurd ht hs
  | halts a => exact .inl ⟨⟨a, rfl⟩, rfl⟩

end

theorem not_steppable_of_terminal {s : State} (h : s.lifecycle = .halted ∨ s.lifecycle = .faulted) : ¬ Steppable s := by
  rcases h with h | h <;> simp [Steppable, h]

/-- Settles O41: by what the executed instruction does to STATE; every other step of a Steppable core faults. -/
theorem lifecycleTransitions : Obligations.LifecycleTransitions := by
  intro s t h
  refine ⟨fun hs => ?_, fun hs => ?_, fun hs ht => ?_⟩
  · cases step_next h with
    | terminal hn => exact absurd hs hn
    | pcOutOfBounds => simp
    | undecodable => simp
    | executed _ _ _ _ _ he => exact he.control.lifecycle_ne_ready (by simp)
  · rw [step_of_not_steppable hs] at h
    cases h
    rfl
  · cases step_next h with
    | terminal hn => exact absurd hs hn
    | pcOutOfBounds => simp at ht
    | undecodable => simp at ht
    | executed _ hpc i hd _ he =>
      rw [hd]
      rcases he.control.halted_cases (by simp) ht with ⟨⟨a, rfl⟩, hcause⟩ | ⟨hmax, hcause, hi⟩
      · exact .inl ⟨⟨a, rfl⟩, hcause⟩
      · exact .inr ⟨le_antisymm hpc hmax, hcause, fun a e => hi a (Except.ok.inj e)⟩

/-- Settles O43: by what the executed instruction does to PC, its operand being an address (44_control.md R92). -/
theorem programCounterMoves : Obligations.ProgramCounterMoves := by
  intro s t h
  cases step_next h with
  | terminal => exact .inl rfl
  | pcOutOfBounds => exact .inl rfl
  | undecodable => exact .inl (by simp)
  | executed _ _ i hd _ he =>
    obtain ⟨-, -, -, hwf⟩ := decode_ok hd
    rw [hd]
    refine he.control.pc_cases.imp id (Or.imp id fun hi => ⟨t.pc, rfl, ?_, ?_⟩)
    · rcases hi with rfl | ⟨rfl, -⟩ | ⟨rfl, -⟩ <;> exact hwf
    · exact hi.imp (congrArg _) (Or.imp (And.imp_left (congrArg _)) (And.imp_left (congrArg _)))

/-- A run from a terminal state is no step at all (40_execution_cycle.md R72 to R74). -/
theorem runFor_of_not_steppable {s : State} (h : ¬ Steppable s) (n : Nat) : runFor n s = .next s := by
  induction n with
  | zero => rfl
  | succ n ih => rw [runFor_succ (step_of_not_steppable h), ih, ite_self]

theorem loadImage_lifecycle {image : List Int} {s : State} (h : loadCheck s.regime 1 image = none) :
    (loadImage image s).2.lifecycle = .ready := by
  rcases loadImage_cases image s with ⟨e, he, -⟩ | ⟨-, e⟩
  · rw [h] at he
    cases he
  · rw [e]
    rfl

/-- From a terminal state only reset and a load that passes do anything, and they make the core Ready (10_state.md R24). -/
theorem HostCall.perform_terminal {s t : State} (hs : ¬ Steppable s) {c : HostCall} (h : c.perform s = .next t) :
    t = s ∨ (c = .reset ∨ ∃ image, c = .load image ∧ loadCheck s.regime 1 image = none) ∧ t.lifecycle = .ready := by
  cases c with
  | reset =>
    cases h
    exact .inr ⟨.inl rfl, rfl⟩
  | load image =>
    cases h
    rcases loadImage_cases image s with ⟨_, -, e⟩ | ⟨hc, -⟩
    · exact .inl (by rw [e])
    · exact .inr ⟨.inr ⟨image, rfl, hc⟩, loadImage_lifecycle hc⟩
  | step =>
    cases (step_of_not_steppable hs).symm.trans h
    exact .inl rfl
  | run cap =>
    cases (runFor_of_not_steppable hs cap).symm.trans h
    exact .inl rfl

/-- Settles O42: by cases on the host's call, where step and run do nothing in a terminal state. -/
theorem onlyResetOrLoadLeavesTerminalStates : Obligations.OnlyResetOrLoadLeavesTerminalStates := by
  intro s hterm
  have hs := not_steppable_of_terminal hterm
  refine ⟨fun c t hcall hne => ?_, rfl, fun _ => loadImage_lifecycle, fun hr => ?_⟩
  · exact (HostCall.perform_terminal hs (hostCall_next hcall).2).resolve_left fun e => hne (e ▸ rfl)
  · exact ⟨hostCall_of_none hr, fun _ => hostCall_of_none hr, (hostCall_of_none hr).trans (step_of_not_steppable hs),
      fun n => (hostCall_of_none hr).trans (runFor_of_not_steppable hs n)⟩

end Sys2Proof.Machine
end

section
/-! The views STATUS and FAULT and the host's calls, all at a step boundary (10_state.md R30 to R32). -/

namespace Sys2Proof.Machine

theorem Lifecycle.code_lt (l : Lifecycle) : l.code < 4 := by cases l <;> decide

theorem HaltCause.code_lt (c : HaltCause) : c.code < 4 := by cases c <;> decide

theorem FaultKind.code_lt (k : FaultKind) : k.code < 16 := by cases k <;> decide

theorem faultKindCode_lt (s : State) : faultKindCode s < 16 := by
  unfold faultKindCode
  split
  · exact FaultKind.code_lt _
  · decide

/-- A concatenation of bits as a number: the upper part, shifted, plus the lower. -/
theorem toNat_append_eq_add {m n : Nat} (x : BitVec m) (y : BitVec n) : (x ++ y).toNat = x.toNat * 2 ^ n + y.toNat := by
  rw [BitVec.toNat_append, ← Nat.shiftLeft_add_eq_or_of_lt y.isLt, Nat.shiftLeft_eq]

/-- The number that STATUS reads as (10_state.md R30). -/
theorem statusBits_toNat (s : State) :
    (statusBits s).toNat = faultKindCode s * 16 + s.haltCause.code * 4 + s.lifecycle.code := by
  have hk := faultKindCode_lt s
  have hc := s.haltCause.code_lt
  have hl := s.lifecycle.code_lt
  simp only [statusBits, toNat_append_eq_add, BitVec.toNat_ofNat]
  omega

/-- The fields of STATUS, each its code (10_state.md R30). -/
theorem statusBits_fields (s : State) :
    ((statusBits s).extractLsb 1 0).toNat = s.lifecycle.code ∧ ((statusBits s).extractLsb 3 2).toNat = s.haltCause.code ∧
    ((statusBits s).extractLsb 7 4).toNat = faultKindCode s ∧ ((statusBits s).extractLsb 15 8).toNat = 0 := by
  have hk := faultKindCode_lt s
  have hc := s.haltCause.code_lt
  have hl := s.lifecycle.code_lt
  simp only [BitVec.extractLsb_toNat, statusBits_toNat, Nat.shiftRight_eq_div_pow]
  omega

/-- Settles O57: the fields hold the codes, and the codes are those of R30 and R97. -/
theorem statusViewFields : Obligations.StatusViewFields := by
  intro s hr
  obtain ⟨hl, hc, hk, hz⟩ := statusBits_fields s
  refine ⟨statusBits s, atStepBoundary_of_none hr, hl.trans ?_, hc.trans ?_, hk.trans ?_, hz⟩
  · cases s.lifecycle <;> rfl
  · cases s.haltCause <;> rfl
  · unfold faultKindCode
    rcases s.fault with _ | f
    · rfl
    · simp only [Option.map_some]
      cases f.kind <;> rfl

section
variable {s : State} (hr : s.io.request = none)
include hr

theorem faultField_of_empty (field : FaultRecord → Option Int) (hf : s.fault = none) :
    faultField field s = .ok { valid := false, value := 0 } := by
  rw [faultField, atStepBoundary_of_none hr, hf]
  rfl

variable {field : FaultRecord → Option Int} {f : FaultRecord} (hf : s.fault = some f)
include hf

theorem faultField_of_none (h : field f = none) : faultField field s = .ok { valid := false, value := 0 } := by
  rw [faultField, atStepBoundary_of_none hr, hf, Option.bind_some, h]
  rfl

theorem faultField_of_some {v : Int} (h : field f = some v) : faultField field s = .ok { valid := true, value := v } := by
  rw [faultField, atStepBoundary_of_none hr, hf, Option.bind_some, h]
  rfl

end

/-- The snapshot shows every cell of the space (10_state.md R32). -/
theorem memorySnapshot_of_none {s : State} (hr : s.io.request = none) :
    ∃ cells, memorySnapshot s = .ok cells ∧ cells.length = s.regime.memWords ∧
      ∀ a, inAddr s.regime a → cells[a]? = some (s.mem.read a) := by
  refine ⟨_, atStepBoundary_of_none hr, by simp, fun a ha => ?_⟩
  have hlt : a < s.regime.memWords := by
    rw [memWords_eq]
    exact Nat.lt_succ_of_le ha
  rw [List.getElem?_map, List.getElem?_range hlt, Option.map_some]

/-- Each FAULT view is a view of one field of the record. -/
theorem exists_faultField_of_mem {view : State → Except Refusal FaultView}
    (h : view ∈ [faultPc, faultWord, faultOpcode, faultOperand, faultDetail]) : ∃ field, view = faultField field := by
  simp only [List.mem_cons, List.not_mem_nil, or_false] at h
  rcases h with rfl | rfl | rfl | rfl | rfl <;> exact ⟨_, rfl⟩

/-- Settles O60: at a step boundary a call or view is what it does or shows, and each FAULT view is a field of the record;
inside a step all are refused. -/
theorem hostActsAtStepBoundary : Obligations.HostActsAtStepBoundary := by
  refine fun s => ⟨fun hr => ⟨?calls, atStepBoundary_of_none hr, atStepBoundary_of_none hr, memorySnapshot_of_none hr,
    ?empty, fun f hf => ?record⟩, fun hr => ?inside⟩
  case calls =>
    exact ⟨hostCall_of_none hr, fun _ => hostCall_of_none hr, hostCall_of_none hr, fun _ => hostCall_of_none hr,
      fun _ => atStepBoundary_of_none hr⟩
  case empty =>
    intro hf view hview
    obtain ⟨field, rfl⟩ := exists_faultField_of_mem hview
    exact faultField_of_empty hr field hf
  case record =>
    have lacks {field} (h : field f = none) := faultField_of_none hr hf (field := field) h
    have holds {field v} (h : field f = some v) := faultField_of_some hr hf (field := field) h
    refine ⟨holds rfl, fun h => lacks h, fun w h => holds h, ?_, ?_, ?_, ?_, ?_, ?_, ?_, ?_, ?_, ?_⟩
    · exact fun h => lacks (by simp [h])
    · exact fun n h => holds (by simp [h])
    · exact fun h => lacks (by simp [h])
    · exact fun n h => holds (by simp [h])
    · exact fun h => lacks (congrArg FaultDetail.number h)
    · rintro n (h | h) <;> exact holds (congrArg FaultDetail.number h)
    · exact fun v h => holds (congrArg FaultDetail.number h)
    · exact fun h => holds (congrArg FaultDetail.number h)
    · exact fun h => holds (congrArg FaultDetail.number h)
    · exact fun h => holds (congrArg FaultDetail.number h)
  case inside =>
    refine ⟨fun _ => hostCall_of_ne_none hr, fun _ => atStepBoundary_of_ne_none hr, atStepBoundary_of_ne_none hr,
      atStepBoundary_of_ne_none hr, atStepBoundary_of_ne_none hr, atStepBoundary_of_ne_none hr, fun view hview => ?_⟩
    obtain ⟨field, rfl⟩ := exists_faultField_of_mem hview
    exact atStepBoundary_of_ne_none hr

end Sys2Proof.Machine
end

/-! ## Memory: the access primitives, what writes and reset leave in a cell, the host and the invariant (20_memory.md) -/

section
/-! The two access primitives, and that no step meets their OutOfBounds (20_memory.md R37, R38). -/

namespace Sys2Proof.Machine

/-- Settles O13: the range check decides, and inside the space the reads are those of `Memory.read_write`. -/
theorem memoryAccessPrimitives : Obligations.MemoryAccessPrimitives := by
  refine fun s a v => ⟨memRead_of_inAddr, memRead_of_not_inAddr, fun ha hwf => ?_, memWrite_of_not_inAddr⟩
  refine ⟨s.mem.write a v, memWrite_of_inAddr ha, ?_, fun b hb => ?_⟩
  · rw [Memory.read_write hwf, if_pos rfl]
  · rw [Memory.read_write hwf, if_neg hb]

/-- Settles O12: every case of `step_effect` is a next state, since a decoded operand is an address. -/
theorem stepAlwaysAnswersNext : Obligations.StepAlwaysAnswersNext := by
  intro s
  obtain ⟨t, ht, -⟩ := step_effect s
  exact ⟨t, ht⟩

end Sys2Proof.Machine
end

section
/-! What STORE and READ write is what a fetch of that cell gets (20_memory.md R50). -/

namespace Sys2Proof.Machine

/-- A step that decodes an instruction has the effect of that instruction on the Running core (40_execution_cycle.md R66). -/
theorem execEffect_of_step {s t : State} {i : Instr} (hs : Steppable s) (hpc : inAddr s.regime s.pc) (h : step s = .next t)
    (hd : decode s.regime (s.mem.read s.pc) = .ok i) : ExecEffect (s.setLifecycle .running) i t := by
  cases step_next h with
  | terminal hn => exact absurd hs hn
  | pcOutOfBounds _ hn => exact absurd hpc hn
  | undecodable _ _ e he => cases he.symm.trans hd
  | executed _ _ j hj _ he =>
    cases hj.symm.trans hd
    exact he

theorem ExecEffect.store_mem {s t : State} {a : Nat} (h : ExecEffect s (.store a) t) : t.mem = s.mem.write a s.acc := by
  cases h
  simp

theorem ExecEffect.read_mem {s t : State} {a : Nat} {v : Int} {rest : List InputAnswer} (h : ExecEffect s (.read a) t)
    (hin : s.io.input = .value v :: rest) (hv : inWord s.regime v) : t.mem = s.mem.write a v := by
  cases h with
  | read _ w _ hw =>
    cases hw.symm.trans hin
    simp
  | readOutOfRange _ w _ hw hnot =>
    cases hw.symm.trans hin
    exact absurd hv hnot
  | readAborted _ _ hw => cases hw.symm.trans hin
  | readWaits _ hw => cases hw.symm.trans hin

/-- A fetch at a written address gets the written value. -/
theorem fetchedWord_of_mem_eq_write {t : State} {m : Memory} {v : Int} (hwf : m.wf) (ha : inAddr t.regime t.pc)
    (hm : t.mem = m.write t.pc v) : fetchedWord t = some v := by
  rw [fetchedWord_of_inAddr ha, hm, Memory.read_write hwf, if_pos rfl]

/-- Settles O48: the memory after the step is the one before with the one cell written, whichever cell it is. -/
theorem writtenCellIsWhatIsFetched : Obligations.WrittenCellIsWhatIsFetched := by
  intro s t a hwf hs hpc h
  have fetched {i v} (hd : decode s.regime (s.mem.read s.pc) = .ok i) (hi : i.operand = a)
      (hm : t.mem = s.mem.write a v) : fetchedWord { t with pc := a } = some v := by
    obtain ⟨-, -, -, ha⟩ := decode_ok hd
    exact fetchedWord_of_mem_eq_write hwf (step_regime h ▸ hi ▸ ha) hm
  refine ⟨fun hd => ?_, fun v rest hd hin hv => ?_⟩
  · exact fetched hd rfl (execEffect_of_step hs hpc h hd).store_mem
  · exact fetched hd rfl ((execEffect_of_step hs hpc h hd).read_mem hin hv)

end Sys2Proof.Machine
end

section
/-! Memory after reset and load (20_memory.md R39, 70_reset_and_hazards.md R115). -/

namespace Sys2Proof.Machine

theorem loadImage_of_loadCheck {image : List Int} {s : State} (h : loadCheck s.regime 1 image = none) :
    loadImage image s = (none, (resetCore s).setMem (Memory.writeFrom [] 0 image)) := by
  rcases loadImage_cases image s with ⟨e, he, -⟩ | ⟨-, e⟩
  · cases h.symm.trans he
  · exact e

/-- Settles O52: the empty memory reads 0 everywhere, and an image writes no cell past its length. -/
theorem resetZeroesMemory : Obligations.ResetZeroesMemory := by
  refine ⟨fun _ a => ⟨Memory.read_nil a, rfl⟩, fun _ a => ⟨Memory.read_nil a, rfl⟩, fun s image a hc hlen => ?_⟩
  have past : ¬ (0 ≤ a ∧ a < 0 + image.length) := by omega
  rw [loadImage_of_loadCheck hc, State.setMem_mem, Memory.read_writeFrom Memory.wf_nil, if_neg past, Memory.read_nil]

end Sys2Proof.Machine
end

section
/-! The host's calls and its moves on the channel keep the invariant (20_memory.md R36, 40_execution_cycle.md R77). -/

namespace Sys2Proof.Machine

theorem Memory.inRange_nil (r : Regime) : Memory.InRange r [] := fun _ h => absurd h List.not_mem_nil

/-- A reset core whose memory is in range has the invariant, at a step boundary: reset keeps the channel. -/
theorem inv_resetCore_setMem {s : State} (hr : s.io.request = none) {m : Memory} (hwf : m.wf) (hm : m.InRange s.regime) :
    Inv ((resetCore s).setMem m) where
  memWf := hwf
  memInRange := hm
  accInWord := inWord_zero s.regime
  pcInAddr := Nat.zero_le _
  haltCauseIff := by simp
  faultIff := by simp
  faultRecords := by simp
  requestRunning := fun h => absurd hr h
  requestMatches := requestMatches_of_none hr

theorem inv_resetCore {s : State} (hr : s.io.request = none) : Inv (resetCore s) :=
  inv_resetCore_setMem hr Memory.wf_nil (Memory.inRange_nil _)

theorem Memory.inRange_writeFrom_of_loadCheck {r : Regime} {image : List Int} (h : loadCheck r 1 image = none) :
    (Memory.writeFrom [] 0 image).InRange r := by
  obtain ⟨hfit, hwords⟩ := loadCheck_eq_none.1 h
  refine (Memory.inRange_nil r).writeFrom ?_ hwords
  rcases hfit with rfl | hlen
  · exact Nat.zero_le _
  · omega

section
variable {s : State} (h : Inv s)
include h

theorem Inv.loadImage (hr : s.io.request = none) (image : List Int) : Inv (loadImage image s).2 := by
  rcases loadImage_cases image s with ⟨_, -, e⟩ | ⟨hc, e⟩ <;> rw [e]
  · exact h
  · exact inv_resetCore_setMem hr (Memory.wf_writeFrom Memory.wf_nil 0 image) (Memory.inRange_writeFrom_of_loadCheck hc)

theorem Inv.runFor {n : Nat} {t : State} (ht : runFor n s = .next t) : Inv t := runFor_keeps stepKeepsInvariant h ht

theorem Inv.perform (hr : s.io.request = none) {c : HostCall} {t : State} (ht : c.perform s = .next t) : Inv t := by
  cases c with
  | reset =>
    cases ht
    exact inv_resetCore hr
  | load image =>
    cases ht
    exact h.loadImage hr image
  | step => exact stepKeepsInvariant s t h ht
  | run cap => exact h.runFor ht

/-- Of the channel, the invariant speaks of the request only. -/
theorem Inv.setIo {c : IoChannel} (hc : c.request = s.io.request) : Inv (s.setIo c) :=
  { h with
    requestRunning := fun hr => h.requestRunning (hc ▸ hr)
    requestMatches := by
      have hm := h.requestMatches
      rw [RequestMatches] at hm ⊢
      rwa [State.setIo_io, hc] }

end

/-- Settles O46: by cases on the host's call, a run being steps only; the host's moves leave the request as it is. -/
theorem hostKeepsInvariant : Obligations.HostKeepsInvariant := by
  refine fun s h => ⟨fun c t hcall => ?_, fun _ => h.setIo rfl, fun _ => h.setIo rfl⟩
  obtain ⟨hr, ht⟩ := hostCall_next hcall
  exact h.perform hr ht

end Sys2Proof.Machine
end

/-! ## Encoding: the fields of a word, the decoder's checks, the two directions of the code (30_encoding.md) -/

section
/-! Encoding and decoding are inverse on the instructions whose operand is an address (30_encoding.md R54, R63). -/

namespace Sys2Proof

/-- The opcode table gives every instruction back from its two fields. -/
theorem ofOpcode_opcode_operand : ∀ i : Instr, ofOpcode i.opcode i.operand = some i
  | .read a => Laws.OpcodeTable.read a
  | .write a => Laws.OpcodeTable.write a
  | .load a => Laws.OpcodeTable.load a
  | .store a => Laws.OpcodeTable.store a
  | .add a => Laws.OpcodeTable.add a
  | .subtract a => Laws.OpcodeTable.subtract a
  | .divide a => Laws.OpcodeTable.divide a
  | .multiply a => Laws.OpcodeTable.multiply a
  | .branch a => Laws.OpcodeTable.branch a
  | .branchneg a => Laws.OpcodeTable.branchneg a
  | .branchzero a => Laws.OpcodeTable.branchzero a
  | .halt a => Laws.OpcodeTable.halt a

theorem Instr.opcode_le_opcodeMax (i : Instr) (r : Regime) : i.opcode ≤ r.opcodeMax := by
  have assigned : i.opcode ≤ 43 := by cases i <;> simp [Instr.opcode]
  have room : 43 ≤ r.opcodeMax := by cases r <;> decide
  exact assigned.trans room

/-- Two fields in their ranges make a word in its range (30_encoding.md R53, R54). -/
theorem enc_le_maxWord {r : Regime} {op a : Nat} (hop : op ≤ r.opcodeMax) (ha : a < r.scale) : enc r op a ≤ r.maxWord := by
  have largest : ((r.opcodeMax * r.scale + (r.scale - 1) : Nat) : Int) = r.maxWord := by cases r <;> rfl
  rw [← largest]
  exact Int.ofNat_le.2 (Nat.add_le_add (Nat.mul_le_mul_right _ hop) (Nat.le_pred_of_lt ha))

theorem decode_encode {r : Regime} {i : Instr} (h : WellFormed r i) : decode r (encode r i) = .ok i := by
  rw [encode, decode_enc h, ofOpcode_opcode_operand]

/-- Settles O1: the fields are in their ranges, so the word is, and the table gives the instruction back. -/
theorem decodeOfEncode : Obligations.DecodeOfEncode := fun r i h =>
  ⟨Int.natCast_nonneg _, enc_le_maxWord (i.opcode_le_opcodeMax r) (lt_of_le_of_lt h r.maxAddress_lt_scale), decode_encode h⟩

/-- Settles O2: by `decode_ok` the instruction's fields are those of the word, and `enc` puts a word's fields together again. -/
theorem encodeOfDecode : Obligations.EncodeOfDecode := by
  intro r w i h
  obtain ⟨hw, hopcode, hoperand, hwf⟩ := decode_ok h
  exact ⟨hwf, by rw [encode, ← hopcode, ← hoperand, enc_split hw]⟩

/-- Settles O7: the decoder evaluated on each word. -/
theorem sampleWordsDecode : Obligations.SampleWordsDecode :=
  ⟨rfl, rfl, rfl, rfl, rfl, rfl, rfl, rfl, rfl, rfl, rfl, rfl, rfl, rfl, rfl, rfl⟩

/-- Two regimes whose memories both have the address read the same operation from its fields (30_encoding.md R61). -/
theorem decode_enc_eq_decode_enc {r r' : Regime} {a : Nat} (h : inAddr r a) (h' : inAddr r' a) (op : Nat) :
    decode r (enc r op a) = decode r' (enc r' op a) := (decode_enc h).trans (decode_enc h').symm

/-- Settles O8: the two words are the encodings of one pair of fields, and every address of NARROW is one of WIDE. -/
theorem regimesAgreeOnOperations : Obligations.RegimesAgreeOnOperations := by
  intro op a i _ ha
  have wideAddr : inAddr .wide a := ha.trans (by decide)
  exact Eq.congr_left (decode_enc_eq_decode_enc (r := .narrow) ha wideAddr op)

end Sys2Proof
end

section
/-! The fields of a word are decimal digit groups (30_encoding.md R53). -/

namespace Sys2Proof

theorem Regime.scale_eq (r : Regime) : r.scale = 10 ^ r.opdDigits := by cases r <;> rfl

theorem Regime.opcodeMax_lt (r : Regime) : r.opcodeMax < 10 ^ r.opcDigits := by cases r <;> decide

/-- The operand is the lowest `OPD_DIGITS` digits, of any word. -/
theorem splitOperand_eq_decimalField (r : Regime) (w : Int) :
    splitOperand r w = decimalField (r.opdDigits - 1) 0 w.toNat := by
  have width : r.opdDigits - 1 - 0 + 1 = r.opdDigits := by cases r <;> rfl
  rw [splitOperand, decimalField, width, pow_zero, Nat.div_one, r.scale_eq]

/-- The opcode is the digits above the operand: a word of the regime has none past them. -/
theorem splitOpcode_eq_decimalField {r : Regime} {w : Int} (h : w ≤ r.maxWord) :
    splitOpcode r w = decimalField (r.digits - 1) r.opdDigits w.toNat := by
  have width : r.digits - 1 - r.opdDigits + 1 = r.opcDigits := by cases r <;> rfl
  have noHigher := lt_of_le_of_lt (splitOpcode_le_opcodeMax h) r.opcodeMax_lt
  rw [decimalField, width, ← r.scale_eq]
  exact (Nat.mod_eq_of_lt noHigher).symm

/-- Row `OA` of 30_encoding.md R53, in the parameters of the regime. -/
theorem split_fields {r : Regime} {w : Int} (h : w ≤ r.maxWord) :
    splitOpcode r w = decimalField (r.digits - 1) r.opdDigits w.toNat ∧ splitOpcode r w = w.toNat / r.scale ∧
    splitOpcode r w ≤ r.opcodeMax ∧
    splitOperand r w = decimalField (r.opdDigits - 1) 0 w.toNat ∧ splitOperand r w = w.toNat % r.scale ∧
    splitOperand r w ≤ r.operandMax :=
  ⟨splitOpcode_eq_decimalField h, rfl, splitOpcode_le_opcodeMax h,
    splitOperand_eq_decimalField r w, rfl, splitOperand_le_operandMax r w⟩

/-- Settles O3: `split_fields` at each regime, and the rule's example. -/
theorem fieldsAreDecimalDigitGroups : Obligations.FieldsAreDecimalDigitGroups :=
  ⟨fun _ _ h => split_fields (r := .wide) h, fun _ _ h => split_fields (r := .narrow) h, rfl, rfl⟩

end Sys2Proof
end

section
/-! The decoder's three rejections, in its order (30_encoding.md R55, R56, R58, R60). -/

namespace Sys2Proof

theorem decode_of_neg {r : Regime} {w : Int} (h : w < 0) : decode r w = .error .invalidInstruction := if_pos h

theorem decode_of_not_inAddr {r : Regime} {w : Int} (hw : 0 ≤ w) (h : ¬ inAddr r (splitOperand r w)) :
    decode r w = .error (.invalidOperand (splitOperand r w)) := (if_neg (not_lt.2 hw)).trans (if_neg h)

theorem decode_enc_of_ofOpcode_eq_none {r : Regime} {op a : Nat} (ha : inAddr r a) (h : ofOpcode op a = none) :
    decode r (enc r op a) = .error (.invalidOpcode op) := by
  rw [decode_enc ha, h]

/-- Settles O4: one rejection lemma per check, the last on the word put together from its fields. -/
theorem decodeChecksInOrder : Obligations.DecodeChecksInOrder := by
  refine ⟨fun r w => ⟨decode_of_neg, decode_of_not_inAddr, fun hw ha hnone => ?_⟩, rfl⟩
  have rejected := decode_enc_of_ofOpcode_eq_none ha hnone
  rwa [enc_split hw] at rejected

end Sys2Proof
end

section
/-! The unassigned opcodes: how many there are, and the fault of each (30_encoding.md R58). -/

namespace Sys2Proof

/-- Past the last assigned opcode every further value is unassigned, so all but the twelve are. -/
theorem countP_unassigned {n : Nat} (hn : 44 ≤ n) :
    ((List.range n).countP fun op => (ofOpcode op 0).isNone) = n - 12 := by
  induction n, hn using Nat.le_induction with
  | base => decide
  | succ n hn ih =>
    have unassigned : ofOpcode n 0 = none := ofOpcode_eq_none (by simp; omega) 0
    rw [List.range_succ, List.countP_append, ih, List.countP_singleton, unassigned, Option.isNone_none, if_pos rfl]
    omega

/-- The word 0 has opcode 0 and operand 0, in either regime. -/
theorem decode_zero (r : Regime) : decode r 0 = .error (.invalidOpcode 0) := by
  have zeroWord : enc r 0 0 = 0 := by simp [enc]
  rw [← zeroWord]
  exact decode_enc_of_ofOpcode_eq_none (Nat.zero_le _) rfl

end Sys2Proof

namespace Sys2Proof.Machine

/-- A step on a word that does not decode enters the fault of its rejection (40_execution_cycle.md R66). -/
theorem step_of_undecodable {s : State} (hs : Steppable s) (hpc : inAddr s.regime s.pc) {e : DecodeError}
    (hd : decode s.regime (s.mem.read s.pc) = .error e) : step s = .next (decodeFault e (s.setLifecycle .running)) := by
  rw [step_of_steppable hs, cycle_of_inAddr (s := s.setLifecycle .running) hpc]
  simp only [State.setLifecycle_regime, State.setLifecycle_mem, State.setLifecycle_pc, hd]

/-- Settles O6: the decoder rejects the opcode, and fault entry overwrites the execution state, so Running leaves no trace. -/
theorem unassignedOpcodesFault : Obligations.UnassignedOpcodesFault := by
  refine ⟨fun s op a hs hpc _ ha hop hword => ?_, countP_unassigned (by decide), countP_unassigned (by decide), decode_zero⟩
  have rejected : decode s.regime (s.mem.read s.pc) = .error (.invalidOpcode op) := by
    rw [hword]
    exact decode_enc_of_ofOpcode_eq_none ha (ofOpcode_eq_none hop a)
  exact step_of_undecodable hs hpc rejected

end Sys2Proof.Machine
end

/-! ## The execution cycle: dispatch, the step and its faults, the sequential advance, runs (40_execution_cycle.md) -/

section
/-! One operation per assigned opcode, and one arm for every other value (40_execution_cycle.md R68). -/

namespace Sys2Proof.Machine

/-- Settles O5: an opcode is one of the twelve, and the table names its operation, or it dispatches to nothing. -/
theorem dispatcherHasOneArmPerOpcode : Obligations.DispatcherHasOneArmPerOpcode := by
  refine ⟨fun r op a ha => ?_, fun _ _ => ⟨rfl, rfl, rfl, rfl, rfl, rfl, rfl, rfl, rfl, rfl, rfl, rfl⟩, fun _ _ => rfl⟩
  by_cases hop : op ∈ [10, 11, 20, 21, 30, 31, 32, 33, 40, 41, 42, 43]
  · rw [decode_enc ha]
    simp only [List.mem_cons, List.not_mem_nil, or_false] at hop
    rcases hop with rfl | rfl | rfl | rfl | rfl | rfl | rfl | rfl | rfl | rfl | rfl | rfl <;> rfl
  · rw [decode_enc_of_ofOpcode_eq_none ha (ofOpcode_eq_none hop a)]
    simp only [List.mem_cons, not_or] at hop
    simp [hop]

end Sys2Proof.Machine
end

section
/-! What a step runs, and which fault it raises (40_execution_cycle.md R64 to R67, 60_exceptions.md R100). -/

namespace Sys2Proof

/-- The faults an instruction itself can raise (60_exceptions.md R100). -/
def Instr.RaisesOwn (i : Instr) (k : Machine.FaultKind) : Prop :=
  (∃ a, i = .read a ∧ (k = .inputAborted ∨ k = .inputOutOfRange)) ∨
  (∃ a, (i = .add a ∨ i = .subtract a ∨ i = .multiply a) ∧ k = .overflow) ∨
  (∃ a, i = .divide a ∧ k = .divisionByZero)

end Sys2Proof

namespace Sys2Proof.Machine

/-- A step on a word that decodes is its instruction, run by the Running core (40_execution_cycle.md R66). -/
theorem step_of_decode {s : State} {i : Instr} (hs : Steppable s) (hpc : inAddr s.regime s.pc)
    (hd : decode s.regime (s.mem.read s.pc) = .ok i) : step s = exec i (s.setLifecycle .running) := by
  rw [step_of_steppable hs, cycle_of_inAddr (s := s.setLifecycle .running) hpc]
  simp only [State.setLifecycle_regime, State.setLifecycle_mem, State.setLifecycle_pc, hd]

/-- Settles O9: the Running core of `step_of_decode` is the one the statement writes out. -/
theorem stepRunsDecodedInstruction : Obligations.StepRunsDecodedInstruction := fun _ _ => step_of_decode

/-- A step whose `PC` is no address faults before the fetch (40_execution_cycle.md R66 stage 1). -/
theorem step_of_not_inAddr {s : State} (hs : Steppable s) (hpc : ¬ inAddr s.regime s.pc) :
    step s = .next (raiseFault .programCounterOutOfBounds .nothing (s.setLifecycle .running)) :=
  (step_of_steppable hs).trans (if_neg hpc)

/-- An instruction that makes a core Faulted has entered one of its own faults. -/
theorem ExecEffect.raisesOwn {s t : State} {i : Instr} (h : ExecEffect s i t) (hs : s.lifecycle ≠ .faulted)
    (ht : t.lifecycle = .faulted) : ∃ f, t.fault = some f ∧ i.RaisesOwn f.kind := by
  cases h with
  | addOverflow a | subtractOverflow a | multiplyOverflow a => exact ⟨_, rfl, .inr (.inl ⟨a, by simp, rfl⟩)⟩
  | divideByZero a => exact ⟨_, rfl, .inr (.inr ⟨a, rfl, rfl⟩)⟩
  | readOutOfRange a => exact ⟨_, rfl, .inl ⟨a, rfl, .inr rfl⟩⟩
  | readAborted a => exact ⟨_, rfl, .inl ⟨a, rfl, .inl rfl⟩⟩
  | readWaits | writeWaits | branch | branchneg | branchzero => exact absurd ht hs
  | halt => cases ht
  | _ => exact absurd ht (nextSeq_lifecycle_ne hs (by decide))

/-- Settles O10: the `PC` check is the cycle's, the next three are the decoder's, and past them the instruction runs. -/
theorem stepFaultPriority : Obligations.StepFaultPriority := by
  intro s hs
  obtain ⟨negative, operand, opcode⟩ := decodeChecksInOrder.1 s.regime (s.mem.read s.pc)
  refine ⟨step_of_not_inAddr hs, fun hpc hw => ?_, fun hpc hw ha => ?_, fun hpc hw ha hop => ?_, fun i t hpc hd h ht => ?_⟩
  · exact step_of_undecodable hs hpc (negative hw)
  · exact step_of_undecodable hs hpc (operand (not_lt.1 hw) ha)
  · exact step_of_undecodable hs hpc (opcode (not_lt.1 hw) ha (ofOpcode_eq_none hop _))
  · exact (execEffect_of_step hs hpc h hd).raisesOwn (by simp) ht

end Sys2Proof.Machine
end

section
/-! The sequential advance and the end by PC exhaustion, with the instruction's write standing (40_execution_cycle.md R69, R70). -/

namespace Sys2Proof

/-- The instructions that end with `next_seq()`: not HALT, BRANCH or a conditional branch that is taken
(40_execution_cycle.md R70). -/
def Instr.Sequential (i : Instr) (s : Machine.State) : Prop :=
  ∃ a, i = .read a ∨ i = .write a ∨ i = .load a ∨ i = .store a ∨ i = .add a ∨ i = .subtract a ∨ i = .divide a ∨
    i = .multiply a ∨ (i = .branchneg a ∧ ¬ s.acc < 0) ∨ (i = .branchzero a ∧ s.acc ≠ 0)

end Sys2Proof

namespace Sys2Proof.Machine

/-- Two states at the same point of control: an instruction's own write moves none of these fields. -/
structure SameControl (s u : State) : Prop where
  regime : u.regime = s.regime
  pc : u.pc = s.pc
  lifecycle : u.lifecycle = s.lifecycle
  haltCause : u.haltCause = s.haltCause

theorem SameControl.nextSeq_of_lt {s u : State} (h : SameControl s u) (hpc : s.pc < s.regime.maxAddress) :
    (nextSeq u).pc = s.pc + 1 ∧ (nextSeq u).lifecycle = s.lifecycle ∧ (nextSeq u).haltCause = s.haltCause := by
  rw [nextSeq_of_le (by rwa [h.regime, h.pc]), ← h.pc]
  exact ⟨rfl, h.lifecycle, h.haltCause⟩

theorem SameControl.nextSeq_of_eq {s u : State} (h : SameControl s u) (hpc : s.pc = s.regime.maxAddress) :
    (nextSeq u).pc = s.pc ∧ (nextSeq u).lifecycle = .halted ∧ (nextSeq u).haltCause = .pcExhausted := by
  rw [nextSeq_of_not_le (by rw [h.regime, h.pc]; omega)]
  exact ⟨h.pc, rfl, rfl⟩

section
variable {s t : State}

/-- A sequential instruction that neither faults nor waits is its own write and then the sequential advance. -/
theorem ExecEffect.sequential {i : Instr} (h : ExecEffect s i t) (hi : i.Sequential s) (hf : t.lifecycle ≠ .faulted)
    (hr : t.io.request = none) : ∃ u, t = nextSeq u ∧ SameControl s u := by
  cases h with
  | addOverflow | subtractOverflow | multiplyOverflow | divideByZero | readOutOfRange | readAborted => exact absurd rfl hf
  | readWaits | writeWaits => cases hr
  | branch | halt => simp [Instr.Sequential] at hi
  | branchneg _ hn => simp [Instr.Sequential, hn] at hi
  | branchzero _ hz => simp [Instr.Sequential, hz] at hi
  | _ => exact ⟨_, rfl, rfl, rfl, rfl, rfl⟩

variable {a : Nat}

theorem ExecEffect.load_acc (h : ExecEffect s (.load a) t) : t.acc = s.mem.read a := by
  cases h
  simp

theorem ExecEffect.write_output (h : ExecEffect s (.write a) t) (hr : t.io.request = none) :
    t.io.output = s.io.output ++ [s.mem.read a] := by
  cases h with
  | write => simp
  | writeWaits => cases hr

variable (hf : t.lifecycle ≠ .faulted)
include hf

theorem ExecEffect.add_acc (h : ExecEffect s (.add a) t) : t.acc = s.acc + s.mem.read a := by
  cases h with
  | add => simp
  | addOverflow => exact absurd rfl hf

theorem ExecEffect.subtract_acc (h : ExecEffect s (.subtract a) t) : t.acc = s.acc - s.mem.read a := by
  cases h with
  | subtract => simp
  | subtractOverflow => exact absurd rfl hf

theorem ExecEffect.multiply_acc (h : ExecEffect s (.multiply a) t) : t.acc = s.acc * s.mem.read a := by
  cases h with
  | multiply => simp
  | multiplyOverflow => exact absurd rfl hf

theorem ExecEffect.divide_acc (h : ExecEffect s (.divide a) t) : t.acc = Int.tdiv s.acc (s.mem.read a) := by
  cases h with
  | divide _ hm => simp [tdiv_eq _ _ hm]
  | divideByZero => exact absurd rfl hf

theorem ExecEffect.read_stores (h : ExecEffect s (.read a) t) (hr : t.io.request = none) :
    ∃ v rest, s.io.input = .value v :: rest ∧ t.mem = s.mem.write a v := by
  cases h with
  | read _ v rest hin => exact ⟨v, rest, hin, by simp⟩
  | readOutOfRange | readAborted => exact absurd rfl hf
  | readWaits => cases hr

end

/-- Settles O26: the instruction's own write and then the sequential advance, which keeps what was written. -/
theorem sequentialAdvanceOrExhaustion : Obligations.SequentialAdvanceOrExhaustion := by
  intro s t i _ hrun h hf hr hi
  have he := exec_next h
  obtain ⟨u, htu, hu⟩ := he.sequential hi hf hr
  refine ⟨fun hpc => ?_, fun hpc => htu ▸ hu.nextSeq_of_eq hpc, ?_, ?_, ?_, ?_, ?_, ?_, ?_, ?_⟩
  · rw [htu, ← hrun]
    exact hu.nextSeq_of_lt hpc
  · rintro a rfl
    exact he.load_acc
  · rintro a rfl
    exact he.add_acc hf
  · rintro a rfl
    exact he.subtract_acc hf
  · rintro a rfl
    exact he.multiply_acc hf
  · rintro a rfl
    exact he.divide_acc hf
  · rintro a rfl
    exact he.store_mem
  · rintro a rfl
    exact he.read_stores hf hr
  · rintro a rfl
    exact he.write_output hr

end Sys2Proof.Machine
end

section
/-! The result of a step, steps in a terminal state, and a run under the host's cap (40_execution_cycle.md R71 to R75). -/

namespace Sys2Proof.Machine

section
variable {s : State}

theorem stepResult_of_request (hr : s.io.request ≠ none) : stepResult s = none := if_neg hr

theorem stepResult_of_running (hr : s.io.request = none) (hl : s.lifecycle = .running) : stepResult s = some .running := by
  simp only [stepResult, hr, hl, if_true]

theorem stepResult_of_halted (hr : s.io.request = none) (hl : s.lifecycle = .halted) :
    stepResult s = some (.halted s.haltCause) := by
  simp only [stepResult, hr, hl, if_true]

theorem stepResult_of_faulted (hr : s.io.request = none) (hl : s.lifecycle = .faulted) :
    stepResult s = s.fault.map .err := by
  simp only [stepResult, hr, hl, if_true]

theorem stepResult_of_ready (hl : s.lifecycle = .ready) : stepResult s = none := by
  simp only [stepResult, hl, ite_self]

/-- A step that has returned a result other than `Ok(Running)` has left a terminal state (40_execution_cycle.md R71). -/
theorem not_steppable_of_stepResult (hrun : stepResult s ≠ some .running) (hnone : stepResult s ≠ none) : ¬ Steppable s := by
  rintro (hl | hl)
  · exact hnone (stepResult_of_ready hl)
  · by_cases hr : s.io.request = none
    · exact hrun (stepResult_of_running hr hl)
    · exact hnone (stepResult_of_request hr)

theorem Inv.request_of_not_running (h : Inv s) (hl : s.lifecycle ≠ .running) : s.io.request = none := by
  by_contra hr
  exact hl (h.requestRunning hr)

end

/-- Settles O11: a terminal state is not Steppable, and of the invariant it is at a step boundary, a Faulted one with a record. -/
theorem terminalStepsDoNothing : Obligations.TerminalStepsDoNothing := by
  refine fun s h => ⟨fun hl => ?_, fun hl => ?_⟩
  · have hr := h.request_of_not_running (by simp [hl])
    exact ⟨step_of_not_steppable (not_steppable_of_terminal (.inl hl)), stepResult_of_halted hr hl⟩
  · have hr := h.request_of_not_running (by simp [hl])
    obtain ⟨f, hf⟩ := Option.isSome_iff_exists.1 (h.faultIff.2 hl)
    refine ⟨step_of_not_steppable (not_steppable_of_terminal (.inr hl)), f, hf, ?_⟩
    rw [stepResult_of_faulted hr hl, hf, Option.map_some]

section
variable {n : Nat} {s t : State}

theorem runFor_succ_of_running (h : step s = .next t) (ht : stepResult t = some .running) :
    runFor (n + 1) s = runFor n t := by
  rw [runFor_succ h, if_pos ht]

theorem runFor_succ_of_not_running (h : step s = .next t) (ht : stepResult t ≠ some .running) :
    runFor (n + 1) s = .next t := by
  rw [runFor_succ h, if_neg ht]

/-- A run that has ended in a terminal state is the same under every larger cap (40_execution_cycle.md R74, R75). -/
theorem runFor_of_le {m : Nat} (hnm : n ≤ m) (h : runFor n s = .next t) (ht : ¬ Steppable t) : runFor m s = .next t := by
  induction n generalizing s m with
  | zero =>
    cases h
    exact runFor_of_not_steppable ht m
  | succ n ih =>
    obtain ⟨m, rfl⟩ := Nat.exists_eq_add_of_le' (Nat.one_le_of_lt hnm)
    obtain ⟨u, hu, -⟩ := step_effect s
    by_cases hrun : stepResult u = some .running
    · rw [runFor_succ_of_running hu hrun] at h ⊢
      exact ih (Nat.le_of_succ_le_succ hnm) h
    · rw [runFor_succ_of_not_running hu hrun] at h ⊢
      exact h

end

/-- Settles O56: by the result of the step taken, and a run that ended otherwise than Running ended in a terminal state. -/
theorem runEndsOnce : Obligations.RunEndsOnce := by
  refine ⟨fun _ => stepResult_of_running, fun _ => stepResult_of_request, fun n s t h => ⟨?_, ?_, ?_⟩, fun _ => rfl, ?_, ?_⟩
  · exact runFor_succ_of_running h
  · exact fun r hr hne => runFor_succ_of_not_running h (by simp [hr, hne])
  · exact fun hnone => runFor_succ_of_not_running h (by simp [hnone])
  · exact fun n m s t hnm h hrun hnone => runFor_of_le hnm h (not_steppable_of_stepResult hrun hnone)
  · exact fun n s hs => runFor_of_not_steppable hs n

end Sys2Proof.Machine
end

/-! ## Input and output: the channel's transactions, READ and WRITE, waiting for the host (41_io.md) -/

section
/-! READ and WRITE on an answered request (41_io.md R81, R82). -/

namespace Sys2Proof.Machine

/-- Settles O14: READ's own write and then `nextSeq`, whose two outcomes are the ones the statement writes out. -/
theorem readStoresAcceptedInput : Obligations.ReadStoresAcceptedInput := by
  intro s a v rest ha hwf hin hmin hmax
  refine ⟨exec_read_value ha hin ⟨hmin, hmax⟩, ?_, fun b hb => ?_⟩
  · rw [Memory.read_write hwf, if_pos rfl]
  · rw [Memory.read_write hwf, if_neg hb]

/-- Settles O15: the record of a fault does not depend on the channel, so it is that of the state before the answer. -/
theorem readFaultsOnBadInput : Obligations.ReadFaultsOnBadInput := by
  refine fun s a rest => ⟨exec_read_aborted, fun v hin hv => exec_read_outOfRange hin ?_⟩
  rintro ⟨hmin, hmax⟩
  exact hv.elim (not_lt.2 hmin) (not_lt.2 hmax)

/-- Settles O16: the transaction and then `nextSeq`, whose two outcomes are the ones the statement writes out. -/
theorem writeGivesCellToHost : Obligations.WriteGivesCellToHost := fun _ _ => exec_write_ready

end Sys2Proof.Machine
end

section
/-! What an instruction does to the channel and to the status: the frames of the storing, output and control forms
(41_io.md R79, R81, R82, 42_load_store.md R84, 44_control.md R92 to R96). -/

namespace Sys2Proof.Machine

@[simp] theorem decodeFault_io (e : DecodeError) (s : State) : (decodeFault e s).io = s.io := by cases e <;> rfl

/-- What a sequential advance does to STATE and HALT_CAUSE (40_execution_cycle.md R70). -/
theorem nextSeq_status_cases (s : State) :
    ((nextSeq s).lifecycle = s.lifecycle ∧ (nextSeq s).haltCause = s.haltCause) ∨
    ((nextSeq s).lifecycle = .halted ∧ (nextSeq s).haltCause = .pcExhausted ∧ (nextSeq s).pc = s.pc) := by
  rcases nextSeq_cases s with ⟨-, e⟩ | ⟨-, e⟩ <;> rw [e]
  · exact .inl ⟨rfl, rfl⟩
  · exact .inr ⟨rfl, rfl, rfl⟩

/-- What an instruction does to STATE, HALT_CAUSE and FAULT: nothing, or the end by exhaustion or by HALT, or the entry of
one of its own faults, before which nothing was written (40_execution_cycle.md R69, R70). -/
inductive StatusEffect (s : State) (i : Instr) (t : State) : Prop where
  | keeps (lifecycle : t.lifecycle = s.lifecycle) (haltCause : t.haltCause = s.haltCause) (fault : t.fault = s.fault)
  | halts (lifecycle : t.lifecycle = .halted) (haltCause : t.haltCause = .pcExhausted ∨ ∃ a, i = .halt a)
    (fault : t.fault = s.fault) (pc : t.pc = s.pc)
  | faults (lifecycle : t.lifecycle = .faulted) (haltCause : t.haltCause = s.haltCause) (mem : t.mem = s.mem)
    (pc : t.pc = s.pc) (k : FaultKind) (raises : i.RaisesOwn k)

/-- The sequential advance after a write that leaves the status and PC alone. -/
theorem statusEffect_nextSeq {s u : State} (i : Instr) (h : SameControl s u) (hf : u.fault = s.fault) :
    StatusEffect s i (nextSeq u) := by
  have fault : (nextSeq u).fault = s.fault := (nextSeq_fault u).trans hf
  rcases nextSeq_status_cases u with ⟨hl, hc⟩ | ⟨hl, hc, hpc⟩
  · exact .keeps (hl.trans h.lifecycle) (hc.trans h.haltCause) fault
  · exact .halts hl (.inl hc) fault (hpc.trans h.pc)

section
variable {s t : State} {i : Instr} (h : ExecEffect s i t)
include h

theorem ExecEffect.status : StatusEffect s i t := by
  cases h with
  | addOverflow a | subtractOverflow a | multiplyOverflow a =>
    exact .faults rfl rfl rfl rfl _ (.inr (.inl ⟨a, by simp, rfl⟩))
  | divideByZero a => exact .faults rfl rfl rfl rfl _ (.inr (.inr ⟨a, rfl, rfl⟩))
  | readOutOfRange a => exact .faults rfl rfl rfl rfl _ (.inl ⟨a, rfl, .inr rfl⟩)
  | readAborted a => exact .faults rfl rfl rfl rfl _ (.inl ⟨a, rfl, .inl rfl⟩)
  | readWaits | writeWaits | branch | branchneg | branchzero => exact .keeps rfl rfl rfl
  | halt a => exact .halts rfl (.inr ⟨a, rfl⟩) rfl rfl
  | _ => exact statusEffect_nextSeq _ ⟨rfl, rfl, rfl, rfl⟩ rfl

theorem ExecEffect.mem_cases : t.mem = s.mem ∨ ∃ a, i = .read a ∨ i = .store a := by
  cases h with
  | store a | read a => exact .inr ⟨a, by simp⟩
  | _ => exact .inl (by simp)

/-- No instruction changes whether the host takes output (41_io.md R79). -/
theorem ExecEffect.outputReady_eq : t.io.outputReady = s.io.outputReady := by
  cases h <;> simp

theorem ExecEffect.io_eq (hi : i.usesChannel = false) : t.io = s.io := by
  cases h with
  | read | readOutOfRange | readAborted | readWaits | write | writeWaits => cases hi
  | _ => simp

/-- An instruction takes no answer and gives no value, or READ takes the oldest answer, or WRITE gives the cell of its operand
(41_io.md R79). -/
theorem ExecEffect.transaction :
    (t.io.input = s.io.input ∧ t.io.output = s.io.output) ∨
    ((∃ a, i = .read a) ∧ t.io.output = s.io.output ∧ ∃ x, s.io.input = x :: t.io.input) ∨
    (t.io.input = s.io.input ∧ ∃ a, i = .write a ∧ t.io.output = s.io.output ++ [s.mem.read a]) := by
  cases h with
  | read a _ _ hin | readOutOfRange a _ _ hin | readAborted a _ hin =>
    exact .inr (.inl ⟨⟨a, rfl⟩, by simp, _, by simpa using hin⟩)
  | write a => exact .inr (.inr ⟨by simp, a, rfl, by simp⟩)
  | _ => exact .inl (by simp)

theorem ExecEffect.output_eq (hi : ∀ a, i ≠ .write a) : t.io.output = s.io.output := by
  rcases h.transaction with ⟨-, hout⟩ | ⟨-, hout, -⟩ | ⟨-, a, hw, -⟩
  · exact hout
  · exact hout
  · exact absurd hw (hi a)

theorem ExecEffect.input_eq (hi : ∀ a, i ≠ .read a) : t.io.input = s.io.input := by
  rcases h.transaction with ⟨hin, -⟩ | ⟨⟨a, hr⟩, -⟩ | ⟨hin, -⟩
  · exact hin
  · exact absurd hr (hi a)
  · exact hin

theorem ExecEffect.input_cases : t.io.input = s.io.input ∨ ∃ x, s.io.input = x :: t.io.input := by
  rcases h.transaction with ⟨hin, -⟩ | ⟨-, -, taken⟩ | ⟨hin, -⟩
  · exact .inl hin
  · exact .inr taken
  · exact .inl hin

end

/-- Settles O33: the frames of memory, ACC, the channel and the status, each for the two storing forms. -/
theorem storingFormsFrame : Obligations.StoringFormsFrame := by
  intro s t a i hwf hi h
  have he := exec_next h
  have cells : ∀ b, b ≠ a → t.mem.read b = s.mem.read b := fun b hb =>
    (he.read_mem_cases hwf b).resolve_right (by rcases hi with rfl | rfl <;> simpa using hb.symm)
  have acc : t.acc = s.acc := he.acc_cases.resolve_right (by rcases hi with rfl | rfl <;> simp [Instr.WritesAcc])
  have output : t.io.output = s.io.output := he.output_eq (by rcases hi with rfl | rfl <;> simp)
  have noHalt : ∀ a, i ≠ .halt a := by rcases hi with rfl | rfl <;> simp
  refine ⟨he.regime_eq, cells, acc, ?_, output, he.outputReady_eq, he.input_cases, ?_, ?_⟩
  · rintro rfl
    refine ⟨he.io_eq rfl, ?_⟩
    cases he.status with
    | keeps _ _ hf => exact hf
    | halts _ _ hf => exact hf
    | faults _ _ _ _ k hk => simp [Instr.RaisesOwn] at hk
  · cases he.status with
    | keeps _ _ hf => exact .inl hf
    | halts _ _ hf => exact .inl hf
    | faults hl _ hm hpc => exact .inr ⟨hl, hm, hpc⟩
  · cases he.status with
    | keeps _ hc => exact .inl hc
    | halts hl hc _ hpc => exact .inr ⟨hl, hc.resolve_right fun ⟨a, ha⟩ => noHalt a ha, hpc⟩
    | faults _ hc => exact .inl hc

/-- Settles O34: none of these forms stores or has a fault of its own, and only WRITE uses the channel. -/
theorem controlAndOutputFormsFrame : Obligations.ControlAndOutputFormsFrame := by
  intro s t a i hi h
  have he := exec_next h
  have mem : t.mem = s.mem := he.mem_cases.resolve_right (by rcases hi with rfl | rfl | rfl | rfl | rfl <;> simp)
  have acc : t.acc = s.acc :=
    he.acc_cases.resolve_right (by rcases hi with rfl | rfl | rfl | rfl | rfl <;> simp [Instr.WritesAcc])
  have channel : i ≠ .write a → t.io = s.io := fun hw =>
    he.io_eq (by rcases hi.resolve_left hw with rfl | rfl | rfl | rfl <;> rfl)
  have input : t.io.input = s.io.input := he.input_eq (by rcases hi with rfl | rfl | rfl | rfl | rfl <;> simp)
  have noFault : ∀ k, ¬ i.RaisesOwn k := by rcases hi with rfl | rfl | rfl | rfl | rfl <;> simp [Instr.RaisesOwn]
  have status : t.fault = s.fault ∧ (t.haltCause = s.haltCause ∨ t.lifecycle = .halted) ∧
      (t.lifecycle = s.lifecycle ∨ t.lifecycle = .halted) := by
    cases he.status with
    | keeps hl hc hf => exact ⟨hf, .inl hc, .inl hl⟩
    | halts hl _ hf => exact ⟨hf, .inr hl, .inr hl⟩
    | faults _ _ _ _ k hk => exact absurd hk (noFault k)
  obtain ⟨fault, cause, lifecycle⟩ := status
  exact ⟨he.regime_eq, fun b => congrArg (·.read b) mem, acc, fault, channel, input, he.outputReady_eq, cause, lifecycle⟩

/-- Settles O49: a step that executes has the transaction of its instruction, and no other step touches the channel. -/
theorem oneTransactionPerStep : Obligations.OneTransactionPerStep := by
  intro s t h
  cases step_next h with
  | terminal => exact .inl ⟨rfl, rfl⟩
  | pcOutOfBounds => exact .inl ⟨rfl, rfl⟩
  | undecodable => exact .inl (by simp)
  | executed _ _ i hd _ he =>
    rcases he.transaction with idle | ⟨⟨a, rfl⟩, taken⟩ | ⟨hin, a, rfl, hout⟩
    · exact .inl idle
    · exact .inr (.inl ⟨⟨a, hd⟩, taken⟩)
    · exact .inr (.inr ⟨hin, a, hd, hout⟩)

end Sys2Proof.Machine
end

section
/-! A request the host has not answered, and its completion (41_io.md R79, R80). -/

namespace Sys2Proof.Machine

/-- The instruction makes a request that the host's side of the channel does not answer (41_io.md R80). -/
inductive Unanswered (s : State) : Instr → IoRequest → Prop where
  | input (a : Nat) (h : s.io.input = []) : Unanswered s (.read a) .input
  | output (a : Nat) (h : s.io.outputReady = false) : Unanswered s (.write a) (.output (s.mem.read a))

/-- An unanswered request leaves the Running core waiting with it (41_io.md R80). -/
theorem Unanswered.step_eq {s : State} {i : Instr} {q : IoRequest} (h : Unanswered s i q) (hs : Steppable s)
    (hpc : inAddr s.regime s.pc) (hd : decode s.regime (s.mem.read s.pc) = .ok i) :
    step s = .next (await q (s.setLifecycle .running)) := by
  obtain ⟨-, -, -, ha⟩ := decode_ok hd
  rw [step_of_decode hs hpc hd]
  cases h with
  | input a hin => exact exec_read_nil hin
  | output a hr => exact exec_write_notReady ha hr

theorem Unanswered.await {s : State} {i : Instr} {q : IoRequest} (h : Unanswered s i q) :
    Unanswered (await q (s.setLifecycle .running)) i q := by
  cases h with
  | input a hin => exact .input a hin
  | output a hr => exact .output a hr

/-- Settles O50: the waiting core meets the same unanswered request again, and waits on it as it did. -/
theorem unansweredRequestIsStuck : Obligations.UnansweredRequestIsStuck := by
  intro s a hs hpc q hq
  obtain ⟨i, hd, h⟩ : ∃ i, decode s.regime (s.mem.read s.pc) = .ok i ∧ Unanswered s i q := by
    rcases hq with ⟨hd, hin, rfl⟩ | ⟨hd, hr, rfl⟩
    · exact ⟨_, hd, .input a hin⟩
    · exact ⟨_, hd, .output a hr⟩
  have waiting : (await q (s.setLifecycle .running)).io.request ≠ none := Option.some_ne_none q
  refine ⟨await q (s.setLifecycle .running), h.step_eq hs hpc hd, rfl, ⟨rfl, waiting, ?_⟩, ?_, fun c => ?_⟩
  · exact h.await.step_eq (.inr rfl) hpc hd
  · exact stepResult_of_request waiting
  · exact hostCall_of_ne_none waiting

/-- READ consumes its answer and ends the request first, so it works on what is left then (41_io.md R79, R81). -/
theorem exec_read_congr {s u : State} {x : InputAnswer} {rest : List InputAnswer} (hs : s.io.input = x :: rest)
    (hu : u.io.input = x :: rest) (h : consumeInput rest s = consumeInput rest u) (a : Nat) :
    exec (.read a) s = exec (.read a) u := by
  have hr : s.regime = u.regime := by simpa using congrArg State.regime h
  rcases x with v | _
  · by_cases hv : inWord s.regime v
    · rw [exec_read_accepted hs hv, exec_read_accepted hu (hr ▸ hv), h]
    · rw [exec_read_outOfRange hs hv, exec_read_outOfRange hu (hr ▸ hv), h]
  · rw [exec_read_aborted hs, exec_read_aborted hu, h]

section
variable {s : State} (hrun : s.lifecycle = .running) (hpc : inAddr s.regime s.pc)
include hrun hpc

/-- A Running core runs its instruction on the channel as it is, whatever the host has done to it. -/
theorem step_setIo_of_decode {i : Instr} (hd : decode s.regime (s.mem.read s.pc) = .ok i) (c : IoChannel) :
    step (s.setIo c) = exec i (s.setIo c) := by
  rw [step_of_decode (s := s.setIo c) (.inr hrun) hpc hd, setLifecycle_self (s := s.setIo c) hrun]

theorem step_hostAnswer {a : Nat} (hd : decode s.regime (s.mem.read s.pc) = .ok (.read a)) (hin : s.io.input = [])
    (x : InputAnswer) :
    step (hostAnswer x s) = exec (.read a) (s.setIo { s.io with request := none, input := [x] }) := by
  have queue : s.io.input ++ [x] = [x] := by rw [hin, List.nil_append]
  rw [hostAnswer, queue, step_setIo_of_decode hrun hpc hd]
  exact exec_read_congr (x := x) (rest := []) rfl rfl rfl a

/-- WRITE on a channel whose host takes output, whatever request is in progress. -/
theorem step_setIo_of_write {a : Nat} (hd : decode s.regime (s.mem.read s.pc) = .ok (.write a)) {c : IoChannel}
    (hr : c.outputReady = true) : step (s.setIo c) = .next (nextSeq (giveOutput (s.mem.read a) (s.setIo c))) := by
  obtain ⟨-, -, -, ha⟩ := decode_ok hd
  rw [step_setIo_of_decode hrun hpc hd]
  exact exec_write_ready ha hr

end

/-- Settles O51: the step runs READ or WRITE on the channel the host has changed, where O14 and O16 say what it leaves. -/
theorem answeredRequestCompletes : Obligations.AnsweredRequestCompletes := by
  refine fun s a hrun hpc => ⟨fun hd hin _ => ⟨fun x => ?_, fun v hv hwf => ?_⟩, fun hd _ => ⟨?_, ?_⟩⟩
  · rw [step_hostAnswer hrun hpc hd hin]
    exact (step_setIo_of_decode hrun hpc hd _).symm
  · obtain ⟨-, -, -, ha⟩ := decode_ok hd
    obtain ⟨stored, written, -⟩ :=
      readStoresAcceptedInput (s.setIo { s.io with request := none, input := [.value v] }) a v [] ha hwf rfl hv.1 hv.2
    exact ⟨(step_hostAnswer hrun hpc hd hin _).trans stored, written⟩
  · exact (step_setIo_of_write hrun hpc hd rfl).trans
      (step_setIo_of_write hrun hpc hd (c := { s.io with request := none, outputReady := true }) rfl).symm
  · exact step_setIo_of_write hrun hpc hd rfl

end Sys2Proof.Machine
end

/-! ## LOAD, STORE and the frame of the forms that write ACC (42_load_store.md) -/

section
/-! LOAD and STORE on an operand that is an address (42_load_store.md R83, R84). -/

namespace Sys2Proof.Machine

/-- Settles O17: LOAD's own write and then `nextSeq`, whose two outcomes are the ones the statement writes out. -/
theorem loadCopiesCellToAccumulator : Obligations.LoadCopiesCellToAccumulator := fun _ _ => exec_load

/-- Settles O18: STORE's own write and then `nextSeq`, and what each cell reads after a write is `Memory.read_write`. -/
theorem storeCopiesAccumulatorToCell : Obligations.StoreCopiesAccumulatorToCell := by
  refine fun s a ha hwf => ⟨exec_store ha, ?_, fun b hb => ?_⟩
  · rw [Memory.read_write hwf, if_pos rfl]
  · rw [Memory.read_write hwf, if_neg hb]

end Sys2Proof.Machine
end

section
/-! The frame of LOAD, ADD, SUBTRACT, DIVIDE and MULTIPLY (42_load_store.md R83, 43_arithmetic.md R87 to R90). -/

namespace Sys2Proof

section
variable {i : Instr} (h : i.WritesAcc)
include h

theorem Instr.WritesAcc.not_stores : ¬ ∃ a, i = .read a ∨ i = .store a := by
  obtain ⟨_, rfl | rfl | rfl | rfl | rfl⟩ := h <;> simp

theorem Instr.WritesAcc.usesChannel_eq_false : i.usesChannel = false := by
  obtain ⟨_, rfl | rfl | rfl | rfl | rfl⟩ := h <;> rfl

theorem Instr.WritesAcc.not_halt : ¬ ∃ a, i = .halt a := by
  obtain ⟨_, rfl | rfl | rfl | rfl | rfl⟩ := h <;> simp

end

end Sys2Proof

namespace Sys2Proof.Machine

/-- An instruction that enters a fault has not written ACC (40_execution_cycle.md R69). -/
theorem ExecEffect.fault_eq_or_acc_eq {s t : State} {i : Instr} (h : ExecEffect s i t) :
    t.fault = s.fault ∨ t.acc = s.acc := by
  cases h with
  | addOverflow | subtractOverflow | multiplyOverflow | divideByZero | readOutOfRange | readAborted => exact .inr rfl
  | _ => exact .inl (by simp)

/-- Settles O32: these forms neither store nor use the channel, and the status moves as `StatusEffect` says of every
instruction, where only HALT ends with another cause. -/
theorem accumulatorFormsFrame : Obligations.AccumulatorFormsFrame := by
  intro s t i (hi : i.WritesAcc) h
  have he := exec_next h
  have mem : t.mem = s.mem := he.mem_cases.resolve_right hi.not_stores
  refine ⟨he.regime_eq, fun b => congrArg (·.read b) mem, he.io_eq hi.usesChannel_eq_false, ?_⟩
  cases he.status with
  | keeps hl hc hf => exact ⟨.inl hf, .inl hc, .inl hl⟩
  | halts hl hc hf hpc => exact ⟨.inl hf, .inr ⟨hl, hc.resolve_right hi.not_halt, hpc⟩, .inr (.inl hl)⟩
  | faults hl hc _ hpc =>
    exact ⟨he.fault_eq_or_acc_eq.imp_right fun hacc => ⟨hl, hacc, hpc, hc⟩, .inl hc, .inr (.inr hl)⟩

end Sys2Proof.Machine
end

/-! ## ADD, SUBTRACT, MULTIPLY, DIVIDE and the widths of the ALU (43_arithmetic.md) -/

section
/-! The range-checked commit and the quotient (43_arithmetic.md R85 to R91). -/

namespace Sys2Proof.Machine

/-- Overflow is exactly "not a word": the exact result lies outside the range, both of whose ends are words. -/
theorem ovf_eq_true_iff {r : Regime} {c : Int} : ovf r c = true ↔ c < r.minWord ∨ r.maxWord < c := by
  rw [← Bool.not_eq_false, ovf_eq_false_iff, not_inWord_iff]

/-- Settles O27: the three operations are one range-checked commit of their exact result, and each way it can go leaves what
the statement says. -/
theorem overflowDetection : Obligations.OverflowDetection := by
  intro s a op i c ha hop
  have hexec : exec i s = .next (commitChecked op c s) := by
    obtain ⟨rfl, rfl, rfl⟩ | ⟨rfl, rfl, rfl⟩ | ⟨rfl, rfl, rfl⟩ := hop
    · exact exec_add ha
    · exact exec_subtract ha
    · exact exec_multiply ha
  refine ⟨ovf_eq_true_iff, _, hexec, fun h => ?_, fun h => ?_⟩
  · rw [commitChecked_of_not_inWord (not_inWord_iff.2 (ovf_eq_true_iff.1 h))]
    exact ⟨rfl, rfl, _, rfl, rfl, rfl⟩
  · rw [commitChecked_of_inWord (ovf_eq_false_iff.1 h)]
    exact ⟨nextSeq_acc _, nextSeq_fault _⟩

/-- DIVIDE has one fault, and it is not Overflow (43_arithmetic.md R89, R91). -/
theorem ExecEffect.divide_fault {s t : State} {a : Nat} (h : ExecEffect s (.divide a) t) :
    t.fault = s.fault ∨ t.fault = some (faultRecord .divisionByZero .nothing s) := by
  cases h with
  | divide => exact .inl (nextSeq_fault _)
  | divideByZero => exact .inr rfl

/-- Settles O29: the magnitude of a quotient is that of its dividend divided by a natural number, and what record DIVIDE can
leave is `ExecEffect.divide_fault`. -/
theorem divideNeverOverflows : Obligations.DivideNeverOverflows := by
  refine ⟨fun r x m hx _ => ⟨?_, inWord_tdiv hx m⟩, fun s t a _ hs h f hf => ?_⟩
  · rw [tdiv_natAbs]
    exact Nat.div_le_self _ _
  · rcases (exec_next h).divide_fault with e | e <;> rw [e] at hf
    · exact absurd (hs.symm.trans hf) nofun
    · cases hf
      exact nofun

/-- An instruction that is a range-checked commit commits a word and faults on anything else, ACC and PC kept. -/
theorem exec_of_commitChecked {s : State} {i : Instr} {op : ArithOp} {c : Int}
    (h : exec i s = .next (commitChecked op c s)) :
    (s.regime.minWord ≤ c → c ≤ s.regime.maxWord → exec i s = .next (nextSeq (s.setAcc c))) ∧
    (c < s.regime.minWord ∨ s.regime.maxWord < c → exec i s = .next (raiseFault .overflow (.operation op) s)) :=
  ⟨fun hmin hmax => h.trans (congrArg _ (commitChecked_of_inWord ⟨hmin, hmax⟩)),
    fun hc => h.trans (congrArg _ (commitChecked_of_not_inWord (not_inWord_iff.2 hc)))⟩

/-- Settles O19: ADD is the range-checked commit of the sum, whose two outcomes the statement writes out. -/
theorem addCommitsOrOverflows : Obligations.AddCommitsOrOverflows := fun _ _ ha => exec_of_commitChecked (exec_add ha)

/-- Settles O20: SUBTRACT is the range-checked commit of the difference. -/
theorem subtractCommitsOrOverflows : Obligations.SubtractCommitsOrOverflows := fun _ _ ha =>
  exec_of_commitChecked (exec_subtract ha)

/-- Settles O21: MULTIPLY is the range-checked commit of the product. -/
theorem multiplyCommitsOrOverflows : Obligations.MultiplyCommitsOrOverflows := fun _ _ ha =>
  exec_of_commitChecked (exec_multiply ha)

/-- Settles O22: on a non-zero divisor the model's quotient is the library's, `tdiv_eq`, and it is committed unchecked. -/
theorem divideCommitsQuotientOrFaults : Obligations.DivideCommitsQuotientOrFaults := fun s _ ha =>
  ⟨fun hm => tdiv_eq s.acc _ hm ▸ exec_divide_nonzero ha hm, exec_divide_zero ha⟩

end Sys2Proof.Machine
end

section
/-! The range of an exact result is inside the signed range of the ALU's width (43_arithmetic.md R86). -/

namespace Sys2Proof

theorem inWord_iff_abs {r : Regime} {v : Int} : inWord r v ↔ |v| ≤ r.maxWord := by
  rw [inWord, r.minWord_eq, abs_le]

theorem Regime.maxWord_nonneg (r : Regime) : 0 ≤ r.maxWord := by cases r <;> decide

end Sys2Proof

namespace Sys2Proof.Machine

/-- The largest magnitude of an exact result of two words (43_arithmetic.md R86, the column of ranges). -/
def aluMax (r : Regime) : AluOp → Int
  | .add => 2 * r.maxWord
  | .subtract => 2 * r.maxWord
  | .multiply => r.maxWord ^ 2
  | .divide => r.maxWord

theorem wordBits_le_aluBits (r : Regime) (op : AluOp) : r.wordBits ≤ aluBits r op := by
  cases r <;> cases op <;> decide

theorem aluMax_mul_two_lt (r : Regime) (op : AluOp) : aluMax r op * 2 < (2 ^ aluBits r op : Nat) := by
  cases r <;> cases op <;> decide

theorem abs_aluResult_le {r : Regime} {x y : Int} (hx : inWord r x) (hy : inWord r y) (op : AluOp) :
    |aluResult op x y| ≤ aluMax r op := by
  have hx' := inWord_iff_abs.1 hx
  have hy' := inWord_iff_abs.1 hy
  cases op with
  | add =>
    calc |x + y| ≤ |x| + |y| := abs_add_le x y
      _ ≤ 2 * r.maxWord := by omega
  | subtract =>
    calc |x - y| ≤ |x| + |y| := abs_sub x y
      _ ≤ 2 * r.maxWord := by omega
  | multiply =>
    calc |x * y| = |x| * |y| := abs_mul x y
      _ ≤ r.maxWord * r.maxWord := mul_le_mul hx' hy' (abs_nonneg y) r.maxWord_nonneg
      _ = r.maxWord ^ 2 := (sq _).symm
  | divide => exact inWord_iff_abs.1 (inWord_tdiv hx y)

/-- A binary ALU of any width computes the exact result, wrapped to its width. -/
theorem binaryResult_toInt {n : Nat} (op : AluOp) (x y : BitVec n) (h : op = .divide → y.toInt ≠ 0) :
    (binaryResult op x y).toInt = (aluResult op x.toInt y.toInt).bmod (2 ^ n) := by
  cases op with
  | add => exact BitVec.toInt_add x y
  | subtract => exact BitVec.toInt_sub
  | multiply => exact BitVec.toInt_mul x y
  | divide => exact (BitVec.toInt_sdiv x y).trans (by rw [aluResult, tdiv_eq _ _ (h rfl)])

theorem signExtend_physicalWord_toInt {r : Regime} {v : Int} (h : inWord r v) (op : AluOp) :
    ((physicalWord r v).signExtend (aluBits r op)).toInt = v :=
  (BitVec.toInt_signExtend_of_le (wordBits_le_aluBits r op)).trans (physicalWord_toInt h)

/-- At the width of the table nothing wraps. -/
theorem physicalResult_toInt {r : Regime} {op : AluOp} {x y : Int} (hx : inWord r x) (hy : inWord r y)
    (h : op = .divide → y ≠ 0) : (physicalResult r op x y).toInt = aluResult op x y := by
  have hrange := abs_le.1 (abs_aluResult_le hx hy op)
  have hwidth := aluMax_mul_two_lt r op
  rw [physicalResult, binaryResult_toInt, signExtend_physicalWord_toInt hx, signExtend_physicalWord_toInt hy]
  · exact Int.bmod_eq_of_le_mul_two (by omega) (by omega)
  · rwa [signExtend_physicalWord_toInt hy]

/-- Settles O30: the table by evaluation, the ranges by `abs_aluResult_le`, and so the exactness by `physicalResult_toInt`. -/
theorem aluWidthsSuffice : Obligations.AluWidthsSuffice := by
  refine ⟨by decide, fun r op x y hx hy h => ⟨physicalResult_toInt hx hy h, ?_⟩⟩
  have hrange := abs_aluResult_le hx hy op
  refine ⟨?_, ?_, ?_⟩
  · rintro (rfl | rfl) <;> exact hrange
  · rintro rfl
    exact hrange
  · rintro rfl
    exact inWord_iff_abs.2 hrange

end Sys2Proof.Machine
end

/-! ## BRANCH, BRANCHNEG, BRANCHZERO and HALT (44_control.md) -/

section
/-! An operand of a word that is no address is rejected, whatever the opcode (30_encoding.md R56, 44_control.md R92). -/

namespace Sys2Proof

theorem Regime.lt_scale_of_le_operandMax {r : Regime} {a : Nat} (h : a ≤ r.operandMax) : a < r.scale :=
  Nat.lt_of_le_pred r.scale_pos h

theorem decode_enc_of_not_inAddr {r : Regime} {op a : Nat} (hmax : a ≤ r.operandMax) (ha : ¬ inAddr r a) :
    decode r (enc r op a) = .error (.invalidOperand a) := by
  have field : splitOperand r (enc r op a) = a := splitOperand_enc (Regime.lt_scale_of_le_operandMax hmax)
  have rejected := decode_of_not_inAddr (not_lt.1 (enc_nonneg r op a)) (field.symm ▸ ha)
  rwa [field] at rejected

end Sys2Proof
end

section
/-! What the four control instructions do to PC and STATE, the conditional branches in both their cases (44_control.md R92 to
R95). -/

namespace Sys2Proof.Machine

theorem exec_branch (a : Nat) (s : State) : exec (.branch a) s = .next (s.setPc a) := rfl

theorem exec_halt (a : Nat) (s : State) : exec (.halt a) s = .next (haltWith .haltInstruction s) := rfl

/-- Settles O23: BRANCH's own write of PC; its word is the encoding of its fields, which decodes or is rejected on the operand. -/
theorem branchSetsProgramCounter : Obligations.BranchSetsProgramCounter :=
  ⟨fun s a => exec_branch a s, fun _ a ha => decode_encode (i := .branch a) ha,
    fun _ _ ha hmax => decode_enc_of_not_inAddr hmax (not_le.2 ha)⟩

/-- Settles O24: the condition on ACC selects the write of PC or `nextSeq`, whose two outcomes the statement writes out. -/
theorem conditionalBranchesFollowAccumulator : Obligations.ConditionalBranchesFollowAccumulator := by
  refine fun s a => ⟨fun hneg => ?_, fun hneg => ?_, fun hzero => ?_, fun hzero => ?_⟩
  · exact exec_branchneg.trans (congrArg _ (if_pos hneg))
  · exact exec_branchneg.trans (congrArg _ (if_neg hneg))
  · exact exec_branchzero.trans (congrArg _ (if_pos hzero))
  · exact exec_branchzero.trans (congrArg _ (if_neg hzero))

/-- Settles O25: HALT's own effect on the status, after which the core is not Steppable. -/
theorem haltStopsNormally : Obligations.HaltStopsNormally := fun s a =>
  ⟨exec_halt a s, step_of_not_steppable (not_steppable_of_terminal (.inl rfl))⟩

end Sys2Proof.Machine
end

/-! ## Faults: the record, what a faulting step has done before, and why a halt is none (60_exceptions.md) -/

section
/-! The record of a fault: the fetched word and its fields, each present only where the record has it (10_state.md R27,
60_exceptions.md R98). -/

namespace Sys2Proof.Machine

section
variable {s : State}

theorem fetchedWord_of_not_inAddr (h : ¬ inAddr s.regime s.pc) : fetchedWord s = none := if_neg h

variable (split : Regime → Int → Nat)

/-- Before the fetch there is no word to take a field of (40_execution_cycle.md R66 stage 1). -/
theorem fetchedField_of_not_inAddr (h : ¬ inAddr s.regime s.pc) : fetchedField split s = none := by
  simp only [fetchedField, fetchedWord_of_not_inAddr h]

variable (hpc : inAddr s.regime s.pc)
include hpc

theorem fetchedField_of_neg (hw : s.mem.read s.pc < 0) : fetchedField split s = none := by
  simp only [fetchedField, fetchedWord_of_inAddr hpc, if_pos hw]

theorem fetchedField_of_not_neg (hw : ¬ s.mem.read s.pc < 0) :
    fetchedField split s = some (split s.regime (s.mem.read s.pc)) := by
  simp only [fetchedField, fetchedWord_of_inAddr hpc, if_neg hw]

end

/-- Settles O38: fault entry writes `faultRecord`, and the fetch and the sign of its word decide which fields it holds. -/
theorem faultEntryRecord : Obligations.FaultEntryRecord := by
  refine fun s k d => ⟨faultRecord k d s, rfl, rfl, rfl, rfl, fun hpc => ?_, fetchedWord_of_inAddr, fun hpc hw => ?_,
    fun hpc hw => ?_⟩
  · exact ⟨fetchedWord_of_not_inAddr hpc, fetchedField_of_not_inAddr _ hpc, fetchedField_of_not_inAddr _ hpc⟩
  · exact ⟨fetchedField_of_neg _ hpc hw, fetchedField_of_neg _ hpc hw⟩
  · exact ⟨fetchedField_of_not_neg _ hpc hw, fetchedField_of_not_neg _ hpc hw⟩

end Sys2Proof.Machine
end

section
/-! Every fault is precise: the state at fault entry is the one the step began with, but for an input already consumed
(40_execution_cycle.md R69, 60_exceptions.md R99). -/

namespace Sys2Proof.Machine

/-- The state `u` at a fault entry, in a step that runs from `s`: `s` itself, or `s` with its oldest answer consumed. -/
inductive AtFaultEntry (s : State) : State → Prop where
  | unchanged : AtFaultEntry s s
  | consumed (x : InputAnswer) (rest : List InputAnswer) (hin : s.io.input = x :: rest) :
    AtFaultEntry s (consumeInput rest s)

/-- An instruction that makes a core Faulted has entered a fault with nothing written. -/
theorem ExecEffect.faultEntry {s t : State} {i : Instr} (h : ExecEffect s i t) (hs : s.lifecycle ≠ .faulted)
    (ht : t.lifecycle = .faulted) : ∃ k d u, t = raiseFault k d u ∧ AtFaultEntry s u := by
  cases h with
  | addOverflow | subtractOverflow | multiplyOverflow | divideByZero => exact ⟨_, _, _, rfl, .unchanged⟩
  | readOutOfRange _ _ _ hin | readAborted _ _ hin => exact ⟨_, _, _, rfl, .consumed _ _ hin⟩
  | readWaits | writeWaits | branch | branchneg | branchzero => exact absurd ht hs
  | halt => cases ht
  | _ => exact absurd ht (nextSeq_lifecycle_ne hs (by decide))

/-- A step that makes a core Faulted has entered a fault, as the Running core, with nothing written. -/
theorem StepEffect.faultEntry {s t : State} (h : StepEffect s t) (hs : s.lifecycle ≠ .faulted)
    (ht : t.lifecycle = .faulted) : ∃ k d u, t = raiseFault k d u ∧ AtFaultEntry (s.setLifecycle .running) u := by
  cases h with
  | terminal => exact absurd ht hs
  | pcOutOfBounds => exact ⟨_, _, _, rfl, .unchanged⟩
  | undecodable _ _ e =>
    obtain ⟨k, d, hk⟩ := decodeFault_eq e (s.setLifecycle .running)
    exact ⟨k, d, _, hk, .unchanged⟩
  | executed _ _ _ _ _ he => exact he.faultEntry (by simp) ht

/-- Settles O39: fault entry writes STATE and FAULT, and the state it is entered from differs at most in the answer consumed. -/
theorem faultsArePrecise : Obligations.FaultsArePrecise := by
  intro s t h hs ht
  obtain ⟨k, d, u, rfl, entry⟩ := (step_next h).faultEntry hs ht
  cases entry with
  | unchanged => exact ⟨rfl, rfl, rfl, rfl, rfl, rfl, rfl, .inl rfl, _, rfl, rfl⟩
  | consumed x _ hin => exact ⟨rfl, rfl, rfl, rfl, rfl, rfl, rfl, .inr ⟨x, hin⟩, _, rfl, rfl⟩

end Sys2Proof.Machine
end

section
/-! A Halted core of the invariant has a cause and no fault record (10_state.md R26, 60_exceptions.md R103). -/

namespace Sys2Proof.Machine

theorem HaltCause.ne_notHalted_iff {c : HaltCause} : c ≠ .notHalted ↔ c = .haltInstruction ∨ c = .pcExhausted := by
  cases c <;> decide

theorem Inv.fault_of_halted {s : State} (h : Inv s) (hl : s.lifecycle = .halted) : s.fault = none := by
  rw [← Option.not_isSome_iff_eq_none, h.faultIff, hl]
  decide

/-- Settles O40: the step keeps the invariant, and of the invariant a Halted core is at a step boundary with its cause. -/
theorem haltingIsNotAFault : Obligations.HaltingIsNotAFault := by
  intro s t hinv h hl
  have ht : Inv t := stepKeepsInvariant s t hinv h
  have boundary : t.io.request = none := ht.request_of_not_running (by simp [hl])
  exact ⟨ht.fault_of_halted hl, stepResult_of_halted boundary hl, HaltCause.ne_notHalted_iff.1 (ht.haltCauseIff.2 hl)⟩

end Sys2Proof.Machine
end

/-! ## Reset, load and the text loader (70_reset_and_hazards.md) -/

section
/-! The reset state, and the invariant at reset (70_reset_and_hazards.md R113, R114). -/

namespace Sys2Proof.Machine

/-- Settles O53: `reset` is the state of a new core but for the channel, which it keeps. -/
theorem resetState : Obligations.ResetState := fun _ => ⟨rfl, rfl⟩

/-- A new core is the reset of itself. -/
theorem inv_resetOf (r : Regime) : Inv (State.resetOf r) := inv_resetCore (s := State.resetOf r) rfl

/-- Settles O44: a new core of either regime has the invariant, and the reset state is the new core of WIDE. -/
theorem invariantHoldsAtReset : Obligations.InvariantHoldsAtReset := ⟨inv_resetOf .wide, inv_resetOf⟩

end Sys2Proof.Machine
end

section
/-! When load succeeds, what it leaves then, and the entry at which it fails (70_reset_and_hazards.md R115, R116). -/

namespace Sys2Proof.Machine

theorem loadImage_fst (image : List Int) (s : State) : (loadImage image s).1 = loadCheck s.regime 1 image := by
  rcases loadImage_cases image s with ⟨e, hc, h⟩ | ⟨hc, h⟩ <;> rw [h, hc]

theorem loadImage_fst_eq_none {image : List Int} {s : State} :
    (loadImage image s).1 = none ↔ image.length ≤ s.regime.memWords ∧ ∀ w ∈ image, inWord s.regime w := by
  have fits : (image = [] ∨ 1 + image.length ≤ s.regime.memWords + 1) ↔ image.length ≤ s.regime.memWords := by
    cases image with
    | nil => simp
    | cons w ws => simp [Nat.add_comm 1]
  rw [loadImage_fst, loadCheck_eq_none, fits]

section
variable {image : List Int} {s : State} (h : (loadImage image s).1 = none)
include h

theorem loadImage_of_fst_eq_none : loadImage image s = (none, (resetCore s).setMem (Memory.writeFrom [] 0 image)) :=
  loadImage_of_loadCheck (loadImage_fst image s ▸ h)

theorem loadImage_read_of_lt {k : Nat} (hk : k < image.length) : (loadImage image s).2.mem.read k = image.getD k 0 := by
  have written : 0 ≤ k ∧ k < 0 + image.length := by omega
  rw [loadImage_of_fst_eq_none h, State.setMem_mem, Memory.read_writeFrom Memory.wf_nil, if_pos written, Nat.sub_zero]

end

/-- Settles O54: the check passes exactly on such an image, and what is then written is a row of cells from address 0. -/
theorem loadWritesImage : Obligations.LoadWritesImage := by
  refine fun s image => ⟨loadImage_fst_eq_none, fun h => ⟨?reset, fun _ => loadImage_read_of_lt h, fun k => ?past⟩⟩
  case reset =>
    rw [loadImage_of_fst_eq_none h]
    rfl
  case past => exact resetZeroesMemory.2.2 s image k (loadImage_fst image s ▸ h)

/-- What a failing check reports: the first entry that offends, for its place before its range. Entry `k` of the list is
entry `i + k` of the image. -/
theorem loadCheck_eq_some {r : Regime} {image : List Int} {i : Nat} {e : LoadError} (h : loadCheck r i image = some e) :
    ∃ k, k < image.length ∧ (∀ j, j < k → i + j ≤ r.memWords ∧ inWord r (image.getD j 0)) ∧
      ((r.memWords < i + k ∧ e = .capacityExceeded (i + k)) ∨
       (i + k ≤ r.memWords ∧ ¬ inWord r (image.getD k 0) ∧ e = .formatError (i + k))) := by
  induction image generalizing i with
  | nil => cases h
  | cons w ws ih =>
    rw [loadCheck] at h
    split at h
    case isTrue full =>
      cases h
      exact ⟨0, Nat.succ_pos _, fun j hj => absurd hj j.not_lt_zero, .inl ⟨full, rfl⟩⟩
    case isFalse room =>
      split at h
      case isFalse noWord =>
        cases h
        exact ⟨0, Nat.succ_pos _, fun j hj => absurd hj j.not_lt_zero, .inr ⟨Nat.not_lt.1 room, noWord, rfl⟩⟩
      case isTrue word =>
        obtain ⟨k, hk, before, offends⟩ := ih h
        rw [Nat.add_right_comm] at offends
        refine ⟨k + 1, Nat.succ_lt_succ hk, fun j hj => ?_, offends⟩
        cases j with
        | zero => exact ⟨Nat.not_lt.1 room, word⟩
        | succ j =>
          obtain ⟨fits, hw⟩ := before j (Nat.lt_of_succ_lt_succ hj)
          exact ⟨by omega, hw⟩

/-- Settles O55: a load that fails answers the state as it was, and its error is the one of the check, begun at entry 1. -/
theorem failedLoadChangesNothing : Obligations.FailedLoadChangesNothing := by
  intro s image e h
  rcases loadImage_cases image s with ⟨e', hc, hload⟩ | ⟨-, hload⟩ <;> rw [hload] at h ⊢
  · cases h
    obtain ⟨k, hk, before, offends⟩ := loadCheck_eq_some hc
    simp only [Nat.add_comm 1, Nat.lt_succ_iff, Nat.succ_le_iff] at before offends
    exact ⟨rfl, k, hk, before, offends⟩
  · cases h

end Sys2Proof.Machine
end

section
/-! The text loader: its word list always loads, and its errors leave the core alone (70_reset_and_hazards.md R119). -/

namespace Sys2Proof.Machine

/-- What a first line can be when all lines pass: one that is skipped, or a word for which there is room. -/
theorem wordsFrom_cons_ok {r : Regime} {n count : Nat} {line : List Char} {rest : List (List Char)} {ws : List Int}
    (h : wordsFrom r n count (line :: rest) = .ok ws) :
    wordsFrom r (n + 1) count rest = .ok ws ∨
    ∃ v vs, readLine r line = .accepted v ∧ count < r.memWords ∧ wordsFrom r (n + 1) (count + 1) rest = .ok vs ∧
      ws = v :: vs := by
  rw [wordsFrom] at h
  rcases hline : readLine r line with _ | v | _ <;> simp only [hline] at h
  case skipped => exact .inl h
  case accepted =>
    split at h
    · cases h
    · next room =>
      split at h
      · next vs hrest =>
        cases h
        exact .inr ⟨v, vs, rfl, Nat.not_le.1 room, hrest, rfl⟩
      · cases h
  case malformed => cases h

/-- The words of lines that pass fit behind those accepted before, and all are words of the regime. -/
theorem wordsFrom_fits {r : Regime} {n count : Nat} {lines : List (List Char)} {ws : List Int}
    (hcount : count ≤ r.memWords) (h : wordsFrom r n count lines = .ok ws) :
    count + ws.length ≤ r.memWords ∧ ∀ w ∈ ws, inWord r w := by
  induction lines generalizing n count ws with
  | nil =>
    cases h
    exact ⟨hcount, fun _ hw => absurd hw List.not_mem_nil⟩
  | cons line rest ih =>
    rcases wordsFrom_cons_ok h with hrest | ⟨v, vs, hline, room, hrest, rfl⟩
    · exact ih hcount hrest
    · obtain ⟨fits, words⟩ := ih room hrest
      exact ⟨by rw [List.length_cons]; omega, List.forall_mem_cons.2 ⟨readLine_accepted hline, words⟩⟩

theorem loadImage_parseText {s : State} {text : List Char} {ws : List Int} (h : parseText s.regime text = .ok ws) :
    (loadImage ws s).1 = none := by
  obtain ⟨fits, words⟩ := wordsFrom_fits (Nat.zero_le _) h
  exact loadImage_fst_eq_none.2 ⟨Nat.zero_add ws.length ▸ fits, words⟩

section
variable {s : State} (hr : s.io.request = none) {text : List Char}
include hr

theorem loadText_of_ok {ws : List Int} (h : parseText s.regime text = .ok ws) :
    loadText text s = .ok (none, (loadImage ws s).2) := by
  rw [loadText, atStepBoundary_of_none hr, h]

theorem loadText_of_error {e : TextError} (h : parseText s.regime text = .error e) :
    loadText text s = .ok (some e, s) := by
  rw [loadText, atStepBoundary_of_none hr, h]

end

/-- Settles O59: the lines that pass yield words that fit, and those are what `load` accepts. -/
theorem textLoaderChecksEverything : Obligations.TextLoaderChecksEverything := fun _ _ =>
  ⟨fun hr => ⟨fun _ h => ⟨loadImage_parseText h, loadText_of_ok hr h⟩, fun _ => loadText_of_error hr⟩,
    atStepBoundary_of_ne_none⟩

end Sys2Proof.Machine
end

section
/-! The value of an accepted line, and the text form of a word (70_reset_and_hazards.md R118, 30_encoding.md R62). -/

namespace Sys2Proof

/-- The words of a regime are the numbers of `DIGITS` digits, with a sign (00_scope.md R8). -/
theorem Regime.maxWord_add_one (r : Regime) : r.maxWord + 1 = (10 ^ r.digits : Nat) := by cases r <;> rfl

theorem inWord_iff_natAbs_lt {r : Regime} {v : Int} : inWord r v ↔ v.natAbs < 10 ^ r.digits := by
  rw [inWord_iff_natAbs, ← Int.lt_add_one_iff, Regime.maxWord_add_one, Int.ofNat_lt]

end Sys2Proof

namespace Sys2Proof.Machine

theorem digitOf_lt {c : Char} (h : isDigit c = true) : digitOf c < 10 := by
  obtain ⟨-, hle⟩ := (isDigit_iff c).1 h
  rw [digitOf, digitBase]
  omega

theorem digitsValue_concat (ds : List Char) (c : Char) : digitsValue (ds ++ [c]) = 10 * digitsValue ds + digitOf c := by
  rw [digitsValue, List.foldl_concat, digitsValue]

theorem digitsValue_lt {ds : List Char} (h : ∀ c ∈ ds, isDigit c = true) : digitsValue ds < 10 ^ ds.length := by
  induction ds using List.reverseRecOn with
  | nil => exact Nat.one_pos
  | append_singleton ds c ih =>
    have init : digitsValue ds < 10 ^ ds.length := ih fun d hd => h d (List.mem_append_left _ hd)
    have last : digitOf c < 10 := digitOf_lt (h c (by simp))
    rw [digitsValue_concat, List.length_append, List.length_singleton, Nat.pow_succ]
    omega

theorem isMagnitude_iff {r : Regime} {ds : List Char} :
    isMagnitude r ds = true ↔ ds.length = r.digits ∧ ∀ c ∈ ds, isDigit c = true := by
  rw [isMagnitude, Bool.and_eq_true, decide_eq_true_eq, List.all_eq_true]

theorem digitsValue_lt_of_isMagnitude {r : Regime} {ds : List Char} (h : isMagnitude r ds = true) :
    digitsValue ds < 10 ^ r.digits := by
  obtain ⟨hlen, hdigits⟩ := isMagnitude_iff.1 h
  exact hlen ▸ digitsValue_lt hdigits

theorem acceptIf_of_inWord {r : Regime} {v : Int} (h : inWord r v) : acceptIf r true v = .accepted v := by
  rw [acceptIf, decide_eq_true h, Bool.and_self, if_pos rfl]

theorem readLine_plus (r : Regime) (ds : List Char) :
    readLine r ('+' :: ds) = acceptIf r (isMagnitude r ds) (digitsValue ds) := by simp [readLine]

theorem readLine_minus (r : Regime) (ds : List Char) :
    readLine r ('-' :: ds) = acceptIf r (isMagnitude r ds) (-(digitsValue ds : Int)) := by simp [readLine]

/-- A sign and `DIGITS` digits are accepted with either sign: the range is that of the digits. -/
theorem readLine_of_isMagnitude {r : Regime} {ds : List Char} (h : isMagnitude r ds = true) :
    readLine r ('+' :: ds) = .accepted (digitsValue ds) ∧ readLine r ('-' :: ds) = .accepted (-(digitsValue ds : Int)) ∧
    inWord r (digitsValue ds) ∧ inWord r (-(digitsValue ds : Int)) := by
  have bound := digitsValue_lt_of_isMagnitude h
  have plus : inWord r (digitsValue ds) := inWord_iff_natAbs_lt.2 bound
  have minus : inWord r (-(digitsValue ds : Int)) := inWord_iff_natAbs_lt.2 ((Int.natAbs_neg _).symm ▸ bound)
  rw [readLine_plus, readLine_minus, h]
  exact ⟨acceptIf_of_inWord plus, acceptIf_of_inWord minus, plus, minus⟩

theorem toNat_digitChar {d : Nat} (hd : d < 10) : (Char.ofNat (digitBase + d)).toNat = digitBase + d := by
  have valid : (digitBase + d).isValidChar := .inl (by rw [digitBase]; omega)
  rw [Char.toNat_ofNat, if_pos valid]

theorem isDigit_of_mem_digitRow {k n : Nat} {c : Char} (h : c ∈ digitRow k n) : isDigit c = true := by
  induction k generalizing n with
  | zero => cases h
  | succ k ih =>
    rw [digitRow, List.mem_append, List.mem_singleton] at h
    rcases h with h | rfl
    · exact ih h
    · have last : n % 10 < 10 := Nat.mod_lt n (by decide)
      rw [isDigit_iff, toNat_digitChar last, digitBase]
      omega

theorem digitsValue_digitRow (k n : Nat) : digitsValue (digitRow k n) = n % 10 ^ k := by
  induction k generalizing n with
  | zero => exact (Nat.mod_one n).symm
  | succ k ih =>
    have last : n % 10 < 10 := Nat.mod_lt n (by decide)
    rw [digitRow, digitsValue_concat, ih, digitOf, toNat_digitChar last, Nat.add_sub_cancel_left, Nat.pow_succ',
      Nat.mod_mul, Nat.add_comm]

theorem isMagnitude_digitRow (r : Regime) (n : Nat) : isMagnitude r (digitRow r.digits n) = true :=
  isMagnitude_iff.2 ⟨digitRow_length _ n, fun _ => isDigit_of_mem_digitRow⟩

/-- A word's text form reads back as the word (30_encoding.md R62). -/
theorem readLine_formatWord {r : Regime} {w : Int} (h : inWord r w) : readLine r (formatWord r w) = .accepted w := by
  obtain ⟨plus, minus, -⟩ := readLine_of_isMagnitude (isMagnitude_digitRow r w.natAbs)
  rw [digitsValue_digitRow, Nat.mod_eq_of_lt (inWord_iff_natAbs_lt.1 h)] at plus minus
  by_cases hw : w < 0
  · rw [formatWord, if_pos hw, minus, Int.ofNat_natAbs_of_nonpos hw.le, neg_neg]
  · rw [formatWord, if_neg hw, plus, Int.natAbs_of_nonneg (not_lt.1 hw)]

theorem linesFrom_cons_of_ne {c : Char} (h : c ≠ '\n') (cs line : List Char) :
    linesFrom (c :: cs) line = linesFrom cs (c :: line) := by
  rw [linesFrom]
  exact h

/-- Characters with no LF among them complete the line begun. -/
theorem linesFrom_of_notMem {cs line : List Char} (h : '\n' ∉ cs) (hline : line ≠ []) :
    linesFrom cs line = [line.reverse ++ cs] := by
  induction cs generalizing line with
  | nil =>
    cases line with
    | nil => exact absurd rfl hline
    | cons c line =>
      rw [linesFrom, List.append_nil]
      exact hline
  | cons c cs ih =>
    rw [List.mem_cons, not_or] at h
    obtain ⟨hc, hcs⟩ := h
    rw [linesFrom_cons_of_ne (Ne.symm hc), ih hcs (List.cons_ne_nil c line), List.reverse_cons, List.append_assoc,
      List.singleton_append]

theorem linesOf_of_notMem {text : List Char} (h : '\n' ∉ text) (htext : text ≠ []) : linesOf text = [text] := by
  cases text with
  | nil => exact absurd rfl htext
  | cons c cs =>
    rw [List.mem_cons, not_or] at h
    obtain ⟨hc, hcs⟩ := h
    rw [linesOf, linesFrom_cons_of_ne (Ne.symm hc), linesFrom_of_notMem hcs (List.cons_ne_nil c []), List.reverse_singleton,
      List.singleton_append]

theorem newline_notMem_formatWord (r : Regime) (w : Int) : '\n' ∉ formatWord r w := by
  refine List.not_mem_cons_of_ne_of_not_mem (by split <;> decide) fun h => ?_
  exact absurd (isDigit_of_mem_digitRow h) (by decide)

theorem parseText_formatWord {r : Regime} {w : Int} (h : inWord r w) : parseText r (formatWord r w) = .ok [w] := by
  have room : ¬ r.memWords ≤ 0 := by cases r <;> decide
  rw [parseText, linesOf_of_notMem (newline_notMem_formatWord r w) (List.cons_ne_nil _ _), wordsFrom, readLine_formatWord h]
  simp only [if_neg room, wordsFrom]

/-- Settles O58: `DIGITS` digits are below `MAX_WORD + 1`; a word's text form is one line, its last digits are all of its
magnitude, and the one word it yields loads into cell 0. -/
theorem acceptedLineValue : Obligations.AcceptedLineValue := by
  refine ⟨fun _ _ => readLine_of_isMagnitude, fun s w hr hw => ?_, by decide, by decide, by decide⟩
  have hparse := parseText_formatWord hw
  exact ⟨_, loadText_of_ok hr hparse, loadImage_read_of_lt (loadImage_parseText hparse) Nat.one_pos⟩

end Sys2Proof.Machine
end
